-- ==== Sys2Proof/Word.lean ====
section
/-! DEFINITION. The value types of 00_scope.md R7 and R9: bytes, words and the fixed-length vectors built from them. -/

namespace Sys2Proof

/-- A byte, 8 bits unsigned (R9). -/
abbrev Byte := BitVec 8

/-- A word, 32 bits unsigned; `+` on it is addition modulo 2^32 (R9, R10, R86). -/
abbrev Word := BitVec 32

/-- A block: 64 bytes presented to the Transform, and the shape of the block buffer (R7, R13, R16). -/
abbrev Block := Vector Byte 64

/-- The chaining state `H[0..7]`, eight words (R7, R15). -/
abbrev Chain := Vector Word 8

/-- The 32 raw digest bytes (R7, R18). -/
abbrev DigestBytes := Vector Byte 32

end Sys2Proof
end

