-- ==== Sys2Proof/Machine/Operands.lean ====
section
/-! DEFINITION. Every conversion between widths the engine performs (20_memory.md R29 to R32, 40_commands.md R65):
big-endian words out of bytes, words and the bit count into bytes, bytes into hex characters. -/

namespace Sys2Proof.Machine

/-- `BE32(b0, b1, b2, b3)`, the big-endian word of four bytes: `b0` is bits 31:24 and `b3` bits 7:0, so that its number is
`b0*2^24 + b1*2^16 + b2*2^8 + b3` (R10, R29; `be32_toNat` in Laws). -/
def be32 (b0 b1 b2 b3 : Byte) : Word := b0 ++ b1 ++ b2 ++ b3

/-- `bytesBE32(w)`: the bytes `w[31:24], w[23:16], w[15:8], w[7:0]`, in that order (R10). -/
def bytesBE32 (w : Word) : Vector Byte 4 :=
  #v[w.extractLsb' 24 8, w.extractLsb' 16 8, w.extractLsb' 8 8, w.extractLsb' 0 8]

/-- `bytesBE64(v)`: the eight bytes of a 64-bit value, most significant first (R10, R30). -/
def bytesBE64 (v : BitVec 64) : Vector Byte 8 :=
  Vector.ofFn fun k : Fin 8 => v.extractLsb' (56 - 8 * k.val) 8

/-- The digest of a chaining state: big-endian, word 0 first, so that `dig[4i .. 4i+3] = bytesBE32(H[i])` (R31, R61). -/
def digestOf (h : Chain) : DigestBytes :=
  Vector.ofFn fun k : Fin 32 =>
    (bytesBE32 (h[k.val / 4]'(by omega)))[k.val % 4]'(Nat.mod_lt _ (by decide))

/-- `HEXCHR(v)`: the ASCII code of the lowercase hexadecimal digit of a nibble (R65). -/
def hexChr (v : BitVec 4) : Byte :=
  if v.toNat ≤ 9 then BitVec.ofNat 8 (0x30 + v.toNat) else BitVec.ofNat 8 (0x61 + (v.toNat - 10))

/-- The two characters of one byte, high nibble first (R64). -/
def hexPair (b : Byte) : List Byte :=
  [hexChr (b.extractLsb' 4 4), hexChr (b.extractLsb' 0 4)]

/-- The hex digest: the characters of the digest bytes in byte order (R64). -/
def hexOf (d : DigestBytes) : List Byte :=
  d.toList.flatMap hexPair

end Sys2Proof.Machine
end

