-- ==== Sys2Proof/Config.lean ====
section
/-! DEFINITION. The implementation parameters of 00_scope.md R8: what the spec fixes has a value here,
what it leaves open has none. `numInstances` is an argument of `State.resetWith` (R8, R102, DESIGN CHOICE, log entry 4). -/

namespace Sys2Proof.Config

/-- `maxUpdateLen`, the largest payload of one UPDATE frame: 2^32 - 1 bytes (R8, R43, D3). -/
def maxUpdateLen : Nat := 2 ^ 32 - 1

/-- `transformLatency`, the time one Transform takes: OPEN, and no rule depends on it (R8, R111, D19).
A constant without a body; nothing in the model reads it (DESIGN CHOICE, log entry 11). -/
opaque transformLatency : Nat

end Sys2Proof.Config
end

