-- ==== Sys2Proof/Syntax.lean ====
section
/-! DEFINITION. The five commands of 30_encoding.md R42 and spec/opcode_table.json, as syntax (R44). -/

namespace Sys2Proof

/-- One constructor per row of spec/opcode_table.json. A reserved opcode is no command of the table: the decoder
answers it as `Decoded.reserved`, and `Machine.step` rejects it as R46 says. -/
inductive Instr where
  /-- CREATE, `OP = 0x01` (R52). -/
  | create
  /-- UPDATE, `OP = 0x02`, with its payload `DATA` in message order (R43, R53). -/
  | update (data : List Byte)
  /-- FINALIZE, `OP = 0x03` (R58). -/
  | finalize
  /-- DIGEST, `OP = 0x04` (R63). -/
  | digest
  /-- HEXDIGEST, `OP = 0x05` (R64). -/
  | hexDigest
  deriving DecidableEq, Repr

end Sys2Proof
end

