-- ==== Sys2Proof/WellFormed.lean ====
section
/-! DEFINITION. Which command terms spell a frame (R43, R44). -/

namespace Sys2Proof

/-- A command term spells a frame exactly when its payload fits the 32-bit length field (R43, R44);
commands without a payload always do. -/
def Instr.wellFormed : Instr → Bool
  | .create => true
  | .update data => decide (data.length ≤ Config.maxUpdateLen)
  | .finalize => true
  | .digest => true
  | .hexDigest => true

/-- `Instr.wellFormed` as a proposition. -/
abbrev Instr.WellFormed (i : Instr) : Prop := i.wellFormed = true

end Sys2Proof
end

