-- ==== Sys2Proof/Decode.lean ====
section
/-! DEFINITION. The command frames of 30_encoding.md (R41 to R47, R50): the opcode table, the frame decoder, total on
every byte sequence, and after it the encoder. -/

namespace Sys2Proof

/-- The five opcodes of the table (R42). -/
inductive Opcode where
  | create | update | finalize | digest | hexDigest
  deriving DecidableEq, Repr

/-- A row of the opcode table: `OP` has this opcode when `OP & mask = pattern`. -/
structure OpcodeRow where
  opcode : Opcode
  mask : Byte
  pattern : Byte
  deriving DecidableEq, Repr

/-- The opcode table: all eight bits of `OP` are decoded (R42). -/
def opcodeTable : List OpcodeRow :=
  [⟨.create, 0xFF, 0x01⟩, ⟨.update, 0xFF, 0x02⟩, ⟨.finalize, 0xFF, 0x03⟩, ⟨.digest, 0xFF, 0x04⟩, ⟨.hexDigest, 0xFF, 0x05⟩]

/-- A row matches an opcode byte. -/
def OpcodeRow.hits (r : OpcodeRow) (op : Byte) : Bool := (op &&& r.mask) == r.pattern

/-- The opcode of a frame's byte 0; `none` for a reserved one (R42, R46). -/
def decodeOpcode (op : Byte) : Option Opcode := (opcodeTable.find? (·.hits op)).map (·.opcode)

/-- The opcode byte of an opcode (R42). -/
def Opcode.byte : Opcode → Byte
  | .create => 0x01
  | .update => 0x02
  | .finalize => 0x03
  | .digest => 0x04
  | .hexDigest => 0x05

/-- What the decoder finds at the front of the bytes that have arrived on a command port. -/
inductive Decoded where
  /-- A complete frame of a command of the table, and the bytes after it. -/
  | command (i : Instr) (rest : List Byte)
  /-- A reserved opcode: a frame of one byte (R46), and the bytes after it. -/
  | reserved (op : Byte) (rest : List Byte)
  /-- No complete frame has arrived yet (R50). -/
  | incomplete
  deriving DecidableEq, Repr

/-- The operands of an UPDATE frame, from the bytes after `OP`: `N` is four bytes, big-endian, and `DATA` the `N` bytes
after it (R41, R43). A frame cut short is incomplete (R50). -/
def decodeUpdate : List Byte → Decoded
  | n0 :: n1 :: n2 :: n3 :: tail =>
    let n := (Machine.be32 n0 n1 n2 n3).toNat
    if tail.length < n then .incomplete else .command (.update (tail.take n)) (tail.drop n)
  | _ => .incomplete

/-- The frame decoder: total on every byte sequence (R41, R47, R50). -/
def decodeFrame : List Byte → Decoded
  | [] => .incomplete
  | op :: tail =>
    match decodeOpcode op with
    | some .create => .command .create tail
    | some .update => decodeUpdate tail
    | some .finalize => .command .finalize tail
    | some .digest => .command .digest tail
    | some .hexDigest => .command .hexDigest tail
    | none => .reserved op tail

/-- The length of the frame at the front, found from its first byte: 1, or `5 + N` for UPDATE; `none` while the bytes
that give the length have not all arrived (R41). -/
def frameLength : List Byte → Option Nat
  | [] => none
  | op :: tail =>
    if op = 0x02 then
      match tail with
      | n0 :: n1 :: n2 :: n3 :: _ => some (5 + (Machine.be32 n0 n1 n2 n3).toNat)
      | _ => none
    else some 1

/-- The opcode of a command (R42). -/
def Instr.opcode : Instr → Opcode
  | .create => .create
  | .update _ => .update
  | .finalize => .finalize
  | .digest => .digest
  | .hexDigest => .hexDigest

/-- The operand bytes of a command: none, or `N` and `DATA` (R41, R43). -/
def Instr.operandBytes : Instr → List Byte
  | .create => []
  | .update data => (Machine.bytesBE32 (BitVec.ofNat 32 data.length)).toList ++ data
  | .finalize => []
  | .digest => []
  | .hexDigest => []

/-- The frame of a command, written from the table of R41. -/
def encode (i : Instr) : List Byte := i.opcode.byte :: i.operandBytes

/-- The first `n` bytes of a number, least significant byte first: how the opcode table numbers a frame's bits. -/
def tableBytes : Nat → Nat → List Byte
  | 0, _ => []
  | n + 1, w => BitVec.ofNat 8 w :: tableBytes n (w / 256)

/-- The frame whose bits are `w` as spec/opcode_table.json numbers them: `nbits` bits in whole bytes, every bit of the
frame above them 0 (an UPDATE frame is completed by zero bytes). -/
def tableFrame (nbits w : Nat) : List Byte :=
  let given := tableBytes ((nbits + 7) / 8) w
  let head := given ++ List.replicate (5 - given.length) 0
  match frameLength head with
  | some len => (head ++ List.replicate (len - head.length) 0).take len
  | none => head

/-- The command the decoder reads from the frame with bits `w`; `none` where it finds no command of the table. -/
def decodeTableWord (nbits w : Nat) : Option Instr :=
  match decodeFrame (tableFrame nbits w) with
  | .command i _ => some i
  | .reserved _ _ => none
  | .incomplete => none

end Sys2Proof
end

