-- ==== Sys2Proof/Machine/Transform.lean ====
section
/-! DEFINITION. The compression function of 41_transform.md (R69 to R88): constants, word functions, message
schedule, the 64 rounds and the feed-forward. The transient state of R21 lives only in these functions. -/

namespace Sys2Proof.Machine

/-- The initial hash value `IV[0..7]` (R70). -/
def iv : Chain :=
  #v[0x6a09e667, 0xbb67ae85, 0x3c6ef372, 0xa54ff53a, 0x510e527f, 0x9b05688c, 0x1f83d9ab, 0x5be0cd19]

/-- The round constants `K[0..63]` (R71), eight to a line. -/
def roundConstants : List Word :=
  [0x428a2f98, 0x71374491, 0xb5c0fbcf, 0xe9b5dba5, 0x3956c25b, 0x59f111f1, 0x923f82a4, 0xab1c5ed5] ++
  [0xd807aa98, 0x12835b01, 0x243185be, 0x550c7dc3, 0x72be5d74, 0x80deb1fe, 0x9bdc06a7, 0xc19bf174] ++
  [0xe49b69c1, 0xefbe4786, 0x0fc19dc6, 0x240ca1cc, 0x2de92c6f, 0x4a7484aa, 0x5cb0a9dc, 0x76f988da] ++
  [0x983e5152, 0xa831c66d, 0xb00327c8, 0xbf597fc7, 0xc6e00bf3, 0xd5a79147, 0x06ca6351, 0x14292967] ++
  [0x27b70a85, 0x2e1b2138, 0x4d2c6dfc, 0x53380d13, 0x650a7354, 0x766a0abb, 0x81c2c92e, 0x92722c85] ++
  [0xa2bfe8a1, 0xa81a664b, 0xc24b8b70, 0xc76c51a3, 0xd192e819, 0xd6990624, 0xf40e3585, 0x106aa070] ++
  [0x19a4c116, 0x1e376c08, 0x2748774c, 0x34b0bcb5, 0x391c0cb3, 0x4ed8aa4a, 0x5b9cca4f, 0x682e6ff3] ++
  [0x748f82ee, 0x78a5636f, 0x84c87814, 0x8cc70208, 0x90befffa, 0xa4506ceb, 0xbef9a3f7, 0xc67178f2]

/-- `ROTR(x, n)` for `0 < n < 32` (R72). -/
def rotr (x : Word) (n : Nat) : Word := (x >>> n) ||| (x <<< (32 - n))

/-- `SHR(x, n)`, zero fill (R73). -/
def shr (x : Word) (n : Nat) : Word := x >>> n

/-- `Ch(x, y, z)` (R74). -/
def ch (x y z : Word) : Word := (x &&& y) ^^^ (~~~x &&& z)

/-- `Maj(x, y, z)` (R75). -/
def maj (x y z : Word) : Word := (x &&& y) ^^^ (x &&& z) ^^^ (y &&& z)

/-- `BSIG0(x)` (R76). -/
def bsig0 (x : Word) : Word := rotr x 2 ^^^ rotr x 13 ^^^ rotr x 22

/-- `BSIG1(x)` (R77). -/
def bsig1 (x : Word) : Word := rotr x 6 ^^^ rotr x 11 ^^^ rotr x 25

/-- `SSIG0(x)` (R78). -/
def ssig0 (x : Word) : Word := rotr x 7 ^^^ rotr x 18 ^^^ shr x 3

/-- `SSIG1(x)` (R79). -/
def ssig1 (x : Word) : Word := rotr x 17 ^^^ rotr x 19 ^^^ shr x 10

/-- Schedule words 0 to 15: the block as big-endian words (R29, R80). -/
def scheduleHead (blk : Block) : List Word :=
  List.ofFn fun t : Fin 16 =>
    be32 (blk[4 * t.val]'(by omega)) (blk[4 * t.val + 1]'(by omega))
      (blk[4 * t.val + 2]'(by omega)) (blk[4 * t.val + 3]'(by omega))

/-- The schedule word that follows the words `w` computed so far: `t` is their number (R81). -/
def scheduleNext (w : List Word) : Word :=
  let t := w.length
  ssig1 (w.getD (t - 2) 0) + w.getD (t - 7) 0 + ssig0 (w.getD (t - 15) 0) + w.getD (t - 16) 0

/-- Append the next `n` schedule words (R81). -/
def scheduleExtend : Nat → List Word → List Word
  | 0, w => w
  | n + 1, w => scheduleExtend n (w ++ [scheduleNext w])

/-- The message schedule `W[0..63]` (R80, R81). -/
def schedule (blk : Block) : List Word := scheduleExtend 48 (scheduleHead blk)

/-- The working variables `a` to `h` (R21, R82). -/
structure Work where
  (a b c d e f g h : Word)
  deriving DecidableEq, Repr

/-- The working variables start as the chaining state (R82). -/
def Work.ofChain (h : Chain) : Work := ⟨h[0], h[1], h[2], h[3], h[4], h[5], h[6], h[7]⟩

/-- `T1` of a round with constant `k` and schedule word `w` (R83). -/
def roundT1 (v : Work) (k w : Word) : Word := v.h + bsig1 v.e + ch v.e v.f v.g + k + w

/-- `T2` of a round (R83). -/
def roundT2 (v : Work) : Word := bsig0 v.a + maj v.a v.b v.c

/-- One round with its constant and schedule word (R83). -/
def roundStep (v : Work) (kw : Word × Word) : Work :=
  let t1 := roundT1 v kw.1 kw.2
  { a := t1 + roundT2 v, b := v.a, c := v.b, d := v.c, e := v.d + t1, f := v.e, g := v.f, h := v.g }

/-- The 64 rounds in order, round `t` with `K[t]` and `W[t]` (R84). -/
def rounds (blk : Block) (v : Work) : Work := (roundConstants.zip (schedule blk)).foldl roundStep v

/-- The feed-forward (R85). -/
def feedForward (h : Chain) (v : Work) : Chain :=
  #v[h[0] + v.a, h[1] + v.b, h[2] + v.c, h[3] + v.d, h[4] + v.e, h[5] + v.f, h[6] + v.g, h[7] + v.h]

/-- `Transform(H, blk)`: a pure function of the chaining state and one block (R69). -/
def transform (h : Chain) (blk : Block) : Chain := feedForward h (rounds blk (Work.ofChain h))

end Sys2Proof.Machine
end

