-- ==== Sys2Proof/Machine/State.lean ====
section
/-! DEFINITION. The state of the engine as plain data: the context of 10_state.md R14, the two ports of a context, the
platform's contexts (R102) and the inputs that have not reached the engine yet; the reasons a step can stop; and reset
(R26, R105). -/

namespace Sys2Proof.Machine

/-- The three conceptual states of a context; the code 0b11 is never held and has no constructor (R19, U-13). -/
inductive Phase where
  | initialized | accumulating | finalized
  deriving DecidableEq, Repr

/-- One context, exactly the fields of R14. -/
structure Context where
  /-- The chaining state `H[0..7]` (R15). -/
  h : Chain
  /-- The block buffer `buf[0..63]` (R16). -/
  buf : Block
  /-- The fill count `L`, 0..63 between commands (R16). -/
  len : Fin 64
  /-- The bit counter `bitLen`, modulo 2^64 (R17). -/
  bitLen : BitVec 64
  /-- The digest register `dig`, empty or 32 bytes (R18). -/
  dig : Option DigestBytes
  /-- The phase (R19). -/
  phase : Phase
  /-- The sticky `FAULT` bit (R20). -/
  fault : Bool
  deriving DecidableEq, Repr

/-- The error conditions of R91. -/
inductive ErrorCode where
  /-- E_RESERVED: the opcode is reserved. -/
  | reserved
  /-- E_FINALIZED: UPDATE or FINALIZE in phase Finalized. -/
  | finalized
  /-- E_NOT_FINALIZED: DIGEST or HEXDIGEST in another phase. -/
  | notFinalized
  deriving DecidableEq, Repr

/-- A response frame: status OK with its data, or an error status, which no data follows (R45). -/
inductive Response where
  | ok (data : List Byte)
  | error (code : ErrorCode)
  deriving DecidableEq, Repr

/-- A context with its two ports (R102). -/
structure Engine where
  ctx : Context
  /-- The bytes that have arrived on the command port and that no command has consumed: a partial frame, or frames the
  host sent ahead (R41, R50; DESIGN CHOICE, log entry 1). -/
  cmdPort : List Byte
  /-- The responses sent since reset, oldest first (R45, R112; DESIGN CHOICE, log entry 12). -/
  respPort : List Response
  /-- The index of the next command in the host's command list (R22). -/
  pc : Nat
  deriving DecidableEq, Repr

/-- What the outside does to the platform. -/
inductive Input where
  /-- The host of context `k` sends bytes to its command port; they are copied here, so the host's own copy no longer
  matters (R39, R110). -/
  | bytes (k : Nat) (bs : List Byte)
  /-- The platform resets context `k` (R105; DEDUCED, log entry 9). -/
  | reset (k : Nat)
  deriving DecidableEq, Repr

/-- The platform: its contexts in the order of their numbers (R102), one of them selected, and the inputs to come. -/
structure State where
  /-- The contexts numbered below the selected one. -/
  lower : List Engine
  /-- The selected context, the one whose port is served (DESIGN CHOICE, log entry 2). -/
  engine : Engine
  /-- The contexts numbered above the selected one. -/
  upper : List Engine
  /-- The inputs that have not reached the engine yet, in the order they arrive. -/
  inputs : List Input
  deriving DecidableEq, Repr

/-- The reasons a step can stop with a fault. No command raises one: an error of the spec is a response and the FAULT
bit, and the engine goes on (R92, R96). -/
inductive Fault where
  /-- Raised by the delivery of an input addressed to a context the platform does not have (R102 numbers them
  0..numInstances-1; DESIGN CHOICE, log entry 10). Safe: the model stops where no hardware port exists. -/
  | noSuchContext (k : Nat)
  deriving DecidableEq, Repr

/-- The reasons a step can be refused. -/
inductive Refusal where
  /-- Raised by no arm: every instruction has its meaning. Safe. -/
  | notModelled (mnemonic : String)
  deriving DecidableEq, Repr

/-- A context after reset: the table of R26. `buf` is unspecified there; zeros, as R26 allows (DESIGN CHOICE, log entry 3). -/
def Context.reset : Context where
  h := iv
  buf := Vector.replicate 64 0
  len := 0
  bitLen := 0
  dig := none
  phase := .initialized
  fault := false

/-- A context and its ports after reset: no partial frame, and a new run begins (R105, R112). -/
def Engine.reset : Engine where
  ctx := Context.reset
  cmdPort := []
  respPort := []
  pc := 0

/-- The platform after reset with `extra` contexts beside the selected context 0, so `numInstances = extra + 1`: the
argument of R8, R102 and D22. -/
def State.resetWith (extra : Nat) : State where
  lower := []
  engine := Engine.reset
  upper := List.replicate extra Engine.reset
  inputs := []

/-- The machine right after reset, for one context (DESIGN CHOICE, log entry 4). -/
def State.reset : State := State.resetWith 0

end Sys2Proof.Machine
end

