-- ==== Sys2Proof/Machine/Flags.lean ====
section
/-! DEFINITION. The engine's only status: the codes of the phase and of the responses, the notional STATUS register, and
the phase checks of the commands (10_state.md R19, R20, R23, R24; 30_encoding.md R45; 60_exceptions.md R91, R94). -/

namespace Sys2Proof.Machine

/-- The 2-bit code of a phase (R19). -/
def Phase.code : Phase → BitVec 2
  | .initialized => 0b00
  | .accumulating => 0b01
  | .finalized => 0b10

/-- The notional STATUS register: PHASE in bits 1:0, FAULT in bit 2, bits 7:3 reserved and 0 (R24). No command reads it. -/
def Context.status (c : Context) : BitVec 8 :=
  (0 : BitVec 5) ++ BitVec.ofBool c.fault ++ c.phase.code

/-- The status byte of an error (R45, R91). -/
def ErrorCode.byte : ErrorCode → Byte
  | .reserved => 0x01
  | .finalized => 0x02
  | .notFinalized => 0x03

/-- The bytes of a response frame: the status byte, then the data of a success (R45). -/
def Response.bytes : Response → List Byte
  | .ok data => 0x00 :: data
  | .error code => [code.byte]

/-- The phase check of UPDATE and FINALIZE (R53, R58, R91). -/
def checkAppend : Phase → Option ErrorCode
  | .initialized => none
  | .accumulating => none
  | .finalized => some .finalized

/-- The phase check of DIGEST and HEXDIGEST (R63, R64, R91). -/
def checkRead : Phase → Option ErrorCode
  | .initialized => some .notFinalized
  | .accumulating => some .notFinalized
  | .finalized => none

end Sys2Proof.Machine
end

