-- ==== Sys2Proof/Machine/Ops.lean ====
section
/-! DEFINITION. The operations the commands share: ending a command with success or with an error (R92: the engine's only
exception, and it has no return, R95, R96), absorbing bytes (R54, R55), the parts of the padding (R59 to R61), reading
the digest, and what happens at the ports between commands (R50, R102, R104, R105). -/

namespace Sys2Proof.Machine

/-- End the selected context's command with context `c` and response `r`: one response frame, and the command index moves
on by one (R22, R45). -/
def finish (c : Context) (r : Response) (s : State) : State :=
  { s with engine := { s.engine with ctx := c, respPort := s.engine.respPort ++ [r], pc := s.engine.pc + 1 } }

/-- `respond(OK, data)` with the context the command leaves (R10, R51). -/
def respond (c : Context) (data : List Byte) (s : State) : State := finish c (.ok data) s

/-- A context with its FAULT bit set (R20). -/
def Context.setFault (c : Context) : Context := { c with fault := true }

/-- `raise Error(code)`: the context keeps every field but FAULT, which becomes 1, and the response is the code alone (R92).
The one operation every error of the engine goes through. -/
def raiseError (code : ErrorCode) (s : State) : State := finish s.engine.ctx.setFault (.error code) s

/-- The new computation CREATE starts; `buf` and `fault` are not written (R52). -/
def createCtx (c : Context) : Context :=
  { c with h := iv, len := 0, bitLen := 0, dig := none, phase := .initialized }

/-- `BlockDone()`: the full buffer is transformed and 512 bits are counted (R55). -/
def blockDone (c : Context) : Context :=
  { c with h := transform c.h c.buf, bitLen := c.bitLen + 512, len := 0 }

/-- `Absorb(x)`: the byte goes to `buf[L]`, and the block is done when it was the 64th (R54). -/
def absorb (c : Context) (x : Byte) : Context :=
  let buf := c.buf.set c.len.val x c.len.isLt
  if room : c.len.val + 1 < 64 then { c with buf := buf, len := ⟨c.len.val + 1, room⟩ }
  else blockDone { c with buf := buf }

/-- UPDATE's effect on a context that accepts it: the payload is absorbed in order, and the phase becomes Accumulating
even for an empty payload (R53). -/
def updateCtx (data : List Byte) (c : Context) : Context :=
  { data.foldl absorb c with phase := .accumulating }

/-- Zero the bytes `lo .. hi - 1` of a block. -/
def zeroFill (b : Block) (lo hi : Nat) : Block :=
  Vector.ofFn fun j : Fin 64 => if lo ≤ j.val ∧ j.val < hi then 0 else b[j.val]

/-- Write the bit count into the last 8 bytes of a block, big-endian (R30, R61). -/
def writeCount (b : Block) (total : BitVec 64) : Block :=
  Vector.ofFn fun j : Fin 64 =>
    if _low : j.val < 56 then b[j.val] else (bytesBE64 total)[j.val - 56]

/-- `PadOne(Lf)` (R59). -/
def padOne (lf : Nat) (c : Context) : Context := { c with buf := zeroFill c.buf (lf + 1) 56 }

/-- `PadTwo(Lf)`: this Transform adds nothing to `bitLen` (R60). -/
def padTwo (lf : Nat) (c : Context) : Context :=
  let b := zeroFill c.buf (lf + 1) 64
  { c with h := transform c.h b, buf := zeroFill b 0 56 }

/-- `Close(total)`: `L` and `bitLen` are not written, and `H` keeps the final chaining value (R61). -/
def close (total : BitVec 64) (c : Context) : Context :=
  let b := writeCount c.buf total
  let h := transform c.h b
  { c with buf := b, h := h, dig := some (digestOf h), phase := .finalized }

/-- The total bit count FINALIZE captures before padding, modulo 2^64 (R58). -/
def totalBits (c : Context) : BitVec 64 := c.bitLen + BitVec.ofNat 64 (8 * c.len.val)

/-- `buf[Lf] <- 0x80` (R58). -/
def markEnd (c : Context) : Context := { c with buf := c.buf.set c.len.val 0x80 c.len.isLt }

/-- PadOne or PadTwo, by the fill before padding, which `L` still holds (R58). -/
def pad (c : Context) : Context := if c.len.val ≤ 55 then padOne c.len.val c else padTwo c.len.val c

/-- FINALIZE's effect on a context that accepts it (R58). -/
def finalizeCtx (c : Context) : Context := close (totalBits c) (pad (markEnd c))

/-- What DIGEST and HEXDIGEST read: the digest in phase Finalized, else the error of the phase check; while the digest
register is empty the read is that error too (R18, R63, R91; DEDUCED, log entry 5). -/
def readDigest (c : Context) : Except ErrorCode DigestBytes :=
  match checkRead c.phase, c.dig with
  | some code, _ => .error code
  | none, some d => .ok d
  | none, none => .error .notFinalized

/-- Every context of the platform, in the order of the numbers (R102). -/
def State.engines (s : State) : List Engine := s.lower ++ s.engine :: s.upper

/-- The number of the selected context. -/
def State.index (s : State) : Nat := s.lower.length

/-- Select context `k`; no context changes. -/
def State.select (k : Nat) (s : State) : Option State :=
  match s.engines[k]? with
  | some e => some { s with lower := s.engines.take k, engine := e, upper := s.engines.drop (k + 1) }
  | none => none

/-- The selected context's command port holds these bytes. -/
def State.withPort (bs : List Byte) (s : State) : State := { s with engine := { s.engine with cmdPort := bs } }

/-- What stands at the front of the selected command port: where the next command is fetched (R41, R51). -/
def State.fetch (s : State) : Decoded := decodeFrame s.engine.cmdPort

/-- Bytes arrive behind those already on the selected context's command port (R41, R50). -/
def State.receive (bs : List Byte) (s : State) : State := s.withPort (s.engine.cmdPort ++ bs)

/-- The selected context is reset: every field, and a partial frame is discarded (R105). -/
def State.resetEngine (s : State) : State := { s with engine := Engine.reset }

/-- An input reaches the context it is addressed to, which becomes the selected one (R37, R102, R105). -/
def deliver (inp : Input) (s : State) : Host.Outcome State Fault Refusal :=
  match inp with
  | .bytes k bs =>
    match s.select k with
    | some t => .next (t.receive bs)
    | none => .fault (.noSuchContext k)
  | .reset k =>
    match s.select k with
    | some t => .next t.resetEngine
    | none => .fault (.noSuchContext k)

/-- What happens while no complete frame stands on the selected port: the next input arrives, and where none does the
state stays as it is (R50, R104; DESIGN CHOICE, log entry 6). -/
def await (s : State) : Host.Outcome State Fault Refusal :=
  match s.inputs with
  | [] => .next s
  | inp :: later => deliver inp { s with inputs := later }

/-- A frame with a reserved opcode is rejected with E_RESERVED, whatever the phase (R46, R91, R94). -/
def rejectReserved (s : State) : Host.Outcome State Fault Refusal := .next (raiseError .reserved s)

end Sys2Proof.Machine
end

