-- ==== Sys2Proof/Machine/Commands.lean ====
section
/-! DEFINITION. The meanings of the five commands (40_commands.md R52, R53, R58, R63, R64), one definition each. Each acts on
the selected context, after its frame has been taken off the command port. -/

namespace Sys2Proof.Machine

/-- CREATE: succeeds in every phase and leaves FAULT as it is (R52). -/
def execCreate (s : State) : Host.Outcome State Fault Refusal :=
  .next (respond (createCtx s.engine.ctx) [] s)

/-- UPDATE: E_FINALIZED in phase Finalized, else the payload is absorbed (R53; for a term longer than a frame DESIGN CHOICE, log entry 8). -/
def execUpdate (data : List Byte) (s : State) : Host.Outcome State Fault Refusal :=
  match checkAppend s.engine.ctx.phase with
  | some code => .next (raiseError code s)
  | none => .next (respond (updateCtx data s.engine.ctx) [] s)

/-- FINALIZE: E_FINALIZED in phase Finalized, else padding, the last Transforms and the digest (R58). -/
def execFinalize (s : State) : Host.Outcome State Fault Refusal :=
  match checkAppend s.engine.ctx.phase with
  | some code => .next (raiseError code s)
  | none => .next (respond (finalizeCtx s.engine.ctx) [] s)

/-- DIGEST: the 32 digest bytes, or E_NOT_FINALIZED; the context is not changed by a success (R63). -/
def execDigest (s : State) : Host.Outcome State Fault Refusal :=
  match readDigest s.engine.ctx with
  | .error code => .next (raiseError code s)
  | .ok d => .next (respond s.engine.ctx d.toList s)

/-- HEXDIGEST: the 64 characters of the digest, or E_NOT_FINALIZED; the context is not changed by a success (R64). -/
def execHexDigest (s : State) : Host.Outcome State Fault Refusal :=
  match readDigest s.engine.ctx with
  | .error code => .next (raiseError code s)
  | .ok d => .next (respond s.engine.ctx (hexOf d) s)

end Sys2Proof.Machine
end

