-- ==== Sys2Proof/Machine/Step.lean ====
section
/-! DEFINITION. One step of the machine (R11, R51): the complete frame at the front of the selected command port is taken and
executed; where there is none, the machine awaits its bytes (R50). -/

namespace Sys2Proof.Machine

/-- One step. -/
def step (s : State) : Host.Outcome State Fault Refusal :=
  match s.fetch with
  | .command i rest => exec i (s.withPort rest)
  | .reserved _ rest => rejectReserved (s.withPort rest)
  | .incomplete => await s

/-- The frame with bits `w`, as the opcode table numbers them, placed in front of whatever stands on the selected command
port, so that the next step executes it (DESIGN CHOICE, log entry 7). -/
def State.withFetchWord (s : State) (nbits w : Nat) : State :=
  s.withPort (tableFrame nbits w ++ s.engine.cmdPort)

end Sys2Proof.Machine
end

