-- ==== Sys2Proof/Machine/Assembler.lean ====
section
/-! DEFINITION. The textual syntax of 30_encoding.md R48 and the pseudo-commands of R49: one line of characters is read
into commands and raw frame bytes, and these into the frame stream for a command port. Details R48 does not spell out are
PRESUMED (log entry 13). -/

namespace Sys2Proof.Machine

/-- The double quote, 0x22. -/
def quoteChar : Char := Char.ofNat 0x22

/-- The backslash, 0x5c. -/
def backslashChar : Char := Char.ofNat 0x5c

/-- The ASCII code of a character as a byte. -/
def charByte (c : Char) : Byte := BitVec.ofNat 8 c.toNat

/-- The value of a hexadecimal digit, in either case. -/
def hexDigit (c : Char) : Option Nat :=
  let n := c.toNat
  if 0x30 ≤ n ∧ n ≤ 0x39 then some (n - 0x30)
  else if 0x61 ≤ n ∧ n ≤ 0x66 then some (n - 0x61 + 10)
  else if 0x41 ≤ n ∧ n ≤ 0x46 then some (n - 0x41 + 10)
  else none

/-- A byte from its two hexadecimal digits. -/
def hexByte (hi lo : Char) : Option Byte :=
  match hexDigit hi, hexDigit lo with
  | some a, some b => some (BitVec.ofNat 8 (16 * a + b))
  | _, _ => none

/-- A decimal number. -/
def decimal : List Char → Option Nat
  | [] => none
  | cs => cs.foldl (fun acc c => acc.bind fun n =>
      if 0x30 ≤ c.toNat ∧ c.toNat ≤ 0x39 then some (10 * n + (c.toNat - 0x30)) else none) (some 0)

/-- The lexical elements of a line. -/
inductive Token where
  | word (cs : List Char)
  | text (bs : List Byte)
  | comma
  | star
  deriving DecidableEq, Repr

/-- The bytes of a string literal and what follows its closing quote: printable ASCII, and the escapes for backslash,
quote and a byte given by two hex digits (R48). The number bounds the literal's length. -/
def lexText : Nat → List Char → Option (List Byte × List Char)
  | 0, _ => none
  | _ + 1, [] => none
  | n + 1, c :: cs =>
    if c = quoteChar then some ([], cs)
    else if c = backslashChar then
      match cs with
      | 'x' :: hi :: lo :: r =>
        match hexByte hi lo, lexText n r with
        | some b, some (bs, rest) => some (b :: bs, rest)
        | _, _ => none
      | d :: r =>
        if d = backslashChar ∨ d = quoteChar then
          (lexText n r).map fun p => (charByte d :: p.1, p.2)
        else none
      | [] => none
    else if 0x20 ≤ c.toNat ∧ c.toNat ≤ 0x7e then
      (lexText n cs).map fun p => (charByte c :: p.1, p.2)
    else none

/-- White space between the elements of a line. -/
def isBlank (c : Char) : Bool := c.toNat == 0x20 || c.toNat == 0x09 || c.toNat == 0x0d

/-- A character of a mnemonic or a number. -/
def isWordChar (c : Char) : Bool :=
  !(isBlank c || c == ',' || c == '*' || c == ';' || c == quoteChar)

/-- The elements of a line; a comment runs from `;` to its end (R48). The number bounds the line's length. -/
def lexLine : Nat → List Char → Option (List Token)
  | 0, _ => none
  | _ + 1, [] => some []
  | n + 1, c :: cs =>
    if isBlank c then lexLine n cs
    else if c = ';' then some []
    else if c = ',' then (lexLine n cs).map (Token.comma :: ·)
    else if c = '*' then (lexLine n cs).map (Token.star :: ·)
    else if c = quoteChar then
      match lexText (n + 1) cs with
      | some (bs, rest) => (lexLine n rest).map (Token.text bs :: ·)
      | none => none
    else (lexLine n ((c :: cs).dropWhile isWordChar)).map (Token.word ((c :: cs).takeWhile isWordChar) :: ·)

/-- A byte literal: `0x` and two hexadecimal digits (R48). -/
def byteLiteral : List Char → Option Byte
  | ['0', 'x', hi, lo] => hexByte hi lo
  | _ => none

/-- A list of byte literals with commas between them (R48). -/
def byteList : List Token → Option (List Byte)
  | [.word cs] => (byteLiteral cs).map ([·])
  | .word cs :: .comma :: more =>
    match byteLiteral cs, byteList more with
    | some b, some bs => some (b :: bs)
    | _, _ => none
  | _ => none

/-- A payload operand: a string literal, a repeated string literal, or a list of byte literals (R48). -/
def payload : List Token → Option (List Byte)
  | [.text bs] => some bs
  | [.text bs, .star, .word k] => (decimal k).map fun n => (List.replicate n bs).flatten
  | ts => byteList ts

/-- The payload of one UPDATE line: at most `maxUpdateLen` bytes (R48). -/
def framePayload (ts : List Token) : Option (List Byte) :=
  match payload ts with
  | some data => if data.length ≤ Config.maxUpdateLen then some data else none
  | none => none

/-- What a line puts on the command port: a command, or one raw frame byte. -/
inductive AsmItem where
  | command (i : Instr)
  | rawByte (b : Byte)
  deriving DecidableEq, Repr

/-- `HASH x` (R49). -/
def hashCommands (x : List Byte) : List Instr := [.create, .update x, .finalize]

/-- `HASHHEX x` (R49). -/
def hashHexCommands (x : List Byte) : List Instr := hashCommands x ++ [.hexDigest]

/-- The items of a line without an operand: a command, or nothing for an empty line. -/
def plainLine (mnemonic : List Char) : Option (List AsmItem) :=
  if mnemonic = ['C', 'R', 'E', 'A', 'T', 'E'] then some [.command .create]
  else if mnemonic = ['F', 'I', 'N', 'A', 'L', 'I', 'Z', 'E'] then some [.command .finalize]
  else if mnemonic = ['D', 'I', 'G', 'E', 'S', 'T'] then some [.command .digest]
  else if mnemonic = ['H', 'E', 'X', 'D', 'I', 'G', 'E', 'S', 'T'] then some [.command .hexDigest]
  else none

/-- The items of a line with an operand. -/
def operandLine (mnemonic : List Char) (ts : List Token) : Option (List AsmItem) :=
  if mnemonic = ['U', 'P', 'D', 'A', 'T', 'E'] then (framePayload ts).map fun x => [.command (.update x)]
  else if mnemonic = ['H', 'A', 'S', 'H'] then (framePayload ts).map fun x => (hashCommands x).map .command
  else if mnemonic = ['H', 'A', 'S', 'H', 'H', 'E', 'X'] then
    (framePayload ts).map fun x => (hashHexCommands x).map .command
  else if mnemonic = ['.', 'B', 'Y', 'T', 'E'] then
    match ts with
    | [.word cs] => (byteLiteral cs).map fun b => [.rawByte b]
    | _ => none
  else none

/-- Read one line; mnemonics are case-insensitive (R48). `none` for a line the syntax does not admit. -/
def assembleLine (line : List Char) : Option (List AsmItem) :=
  match lexLine (line.length + 1) line with
  | none => none
  | some [] => some []
  | some [.word m] => plainLine (m.map Char.toUpper)
  | some (.word m :: ts) => operandLine (m.map Char.toUpper) ts
  | some _ => none

/-- The frame bytes of an item (R41, R48). -/
def AsmItem.frame : AsmItem → List Byte
  | .command i => encode i
  | .rawByte b => [b]

/-- The frame stream of a text, line by line. -/
def assemble : List (List Char) → Option (List Byte)
  | [] => some []
  | line :: more =>
    match assembleLine line, assemble more with
    | some items, some bs => some (items.flatMap AsmItem.frame ++ bs)
    | _, _ => none

end Sys2Proof.Machine
end

