-- ==== Sys2Proof/Machine/Message.lean ====
section
/-! DEFINITION. The message-level view of the hash (20_memory.md R28, 40_commands.md R58 to R62): a message cut into blocks,
the padded message, and the digest of a whole message. It is written apart from the incremental commands, so that
statements can hold the one against the other. -/

namespace Sys2Proof.Machine

/-- The 64 bytes of a byte sequence from `64 * i` on; a byte past its end would read as 0. -/
def blockAt (m : List Byte) (i : Nat) : Block :=
  Vector.ofFn fun j : Fin 64 => m.getD (64 * i + j.val) 0

/-- The complete blocks of a byte sequence, in order. -/
def fullBlocks (m : List Byte) : List Block := (List.range (m.length / 64)).map (blockAt m)

/-- The Transforms of the complete blocks of `m`, from the chaining state `h`. -/
def chainFrom (h : Chain) (m : List Byte) : Chain := (fullBlocks m).foldl transform h

/-- The padded message: 0x80, zero bytes up to byte 56 of a block, and the bit count modulo 2^64 in 8 bytes, big-endian
(R12 "Padding", R58 to R61). -/
def padded (m : List Byte) : List Byte :=
  m ++ 0x80 :: List.replicate ((119 - m.length % 64) % 64) 0 ++ (bytesBE64 (BitVec.ofNat 64 (8 * m.length))).toList

/-- The digest of a whole message. For 2^64 bits or more it is the wrapped digest of R6 and R17. -/
def hashMessage (m : List Byte) : DigestBytes := digestOf (chainFrom iv (padded m))

end Sys2Proof.Machine
end

