-- ==== Sys2Proof/Safety.lean ====
section
/-! DEFINITION. What counts as a safe run and what claims are stated in: the observation of a run (R112), the message a
context holds (R28), the relations between states that the invariants and the isolation claims name, and how a payload is written in
the textual syntax (R48). -/

namespace Sys2Proof.Machine

/-- The observation of a run: its responses, FAULT at its end and the final phase (R112). -/
structure Observation where
  responses : List Response
  fault : Bool
  phase : Phase
  deriving DecidableEq, Repr

/-- The observation of one context's run (R103, R112). -/
def Engine.observe (e : Engine) : Observation := ⟨e.respPort, e.ctx.fault, e.ctx.phase⟩

/-- No misuse was recorded on the selected context: the premise of every claim about a run (R93, R112). -/
abbrev State.Safe (s : State) : Prop := s.engine.ctx.fault = false

/-- Commands executed one after the other, each from the state the one before it left (R36). -/
def execAll : List Instr → State → Host.Outcome State Fault Refusal
  | [], s => .next s
  | i :: more, s =>
    match exec i s with
    | .next t => execAll more t
    | .fault r => .fault r
    | .refused r => .refused r

/-- The complete blocks of `m` have been transformed, and its other bytes stand in the buffer (R16, R17, R28). -/
structure Context.Pending (c : Context) (m : List Byte) : Prop where
  len_eq : c.len.val = m.length % 64
  bitLen_eq : c.bitLen = BitVec.ofNat 64 (512 * (m.length / 64))
  buf_eq : ∀ j (_ : j < 64), j < c.len.val → c.buf[j] = m.getD (64 * (m.length / 64) + j) 0
  h_eq : c.h = chainFrom iv m

/-- The context holds the message `m`: what it received since CREATE or reset, not hashed to its end yet, or hashed
(R18, R19, R28). -/
def Context.Holds (c : Context) (m : List Byte) : Prop :=
  match c.phase with
  | .initialized => m = [] ∧ c.Pending m ∧ c.dig = none
  | .accumulating => c.Pending m ∧ c.dig = none
  | .finalized => c.h = chainFrom iv (padded m) ∧ c.dig = some (hashMessage m)

/-- Every context of the platform holds some message. -/
def State.HoldsMessages (s : State) : Prop := ∀ e ∈ s.engines, ∃ m, e.ctx.Holds m

/-- A response that reports an error. -/
def Response.isError : Response → Bool
  | .ok _ => false
  | .error _ => true

/-- One response for each command so far, and FAULT is 1 exactly when one of them reported an error (R20, R22, R45, R93). -/
def Engine.Accounted (e : Engine) : Prop :=
  e.pc = e.respPort.length ∧ e.ctx.fault = e.respPort.any Response.isError

/-- Every context of the platform is accounted for. -/
def State.Accounted (s : State) : Prop := ∀ e ∈ s.engines, e.Accounted

/-- No context but the selected one has a complete frame on its port (R37, R50). -/
def State.OthersWait (s : State) : Prop := ∀ e ∈ s.lower ++ s.upper, decodeFrame e.cmdPort = .incomplete

/-- Two contexts that differ at most in buffer bytes at and beyond `L` (R16, R112). -/
structure Context.SameButStale (c d : Context) : Prop where
  h_eq : c.h = d.h
  len_eq : c.len = d.len
  bitLen_eq : c.bitLen = d.bitLen
  dig_eq : c.dig = d.dig
  phase_eq : c.phase = d.phase
  fault_eq : c.fault = d.fault
  buf_eq : ∀ j (_ : j < 64), j < c.len.val → c.buf[j] = d.buf[j]

/-- Two states that differ at most in stale buffer bytes of the selected context. -/
def State.SameButStale (s t : State) : Prop :=
  s.engine.ctx.SameButStale t.engine.ctx ∧
    s = { t with engine := { t.engine with ctx := s.engine.ctx } }

/-- The context a step acts on: the selected one while a complete frame stands on its port, else the one the next input is
addressed to. -/
def State.actor (s : State) : Option Nat :=
  match s.fetch, s.inputs with
  | .command _ _, _ => some s.index
  | .reserved _ _, _ => some s.index
  | .incomplete, .bytes k _ :: _ => some k
  | .incomplete, .reset k :: _ => some k
  | .incomplete, [] => none

/-- The cells of R66 for the five commands: the phase a command leaves and the status byte it answers. -/
def phaseTable : Phase → Instr → Phase × Byte
  | .initialized, .create => (.initialized, 0x00)
  | .initialized, .update _ => (.accumulating, 0x00)
  | .initialized, .finalize => (.finalized, 0x00)
  | .initialized, .digest => (.initialized, 0x03)
  | .initialized, .hexDigest => (.initialized, 0x03)
  | .accumulating, .create => (.initialized, 0x00)
  | .accumulating, .update _ => (.accumulating, 0x00)
  | .accumulating, .finalize => (.finalized, 0x00)
  | .accumulating, .digest => (.accumulating, 0x03)
  | .accumulating, .hexDigest => (.accumulating, 0x03)
  | .finalized, .create => (.initialized, 0x00)
  | .finalized, .update _ => (.finalized, 0x02)
  | .finalized, .finalize => (.finalized, 0x02)
  | .finalized, .digest => (.finalized, 0x00)
  | .finalized, .hexDigest => (.finalized, 0x00)

/-! Payload operands as text (R48) -/

/-- A hexadecimal digit of value `n`, in either case (PRESUMED, log entry 13). -/
def HexChar (n : Fin 16) (c : Char) : Prop :=
  "0123456789abcdef".toList[n.val]? = some c ∨ "0123456789ABCDEF".toList[n.val]? = some c

/-- How one byte stands in a string literal: a printable ASCII character, or one of the three escapes (R48). -/
inductive ByteSpelled : Byte → List Char → Prop
  | plain (c : Char) (low : 0x20 ≤ c.toNat) (high : c.toNat ≤ 0x7e) (noQuote : c ≠ quoteChar)
      (noBackslash : c ≠ backslashChar) : ByteSpelled (BitVec.ofNat 8 c.toNat) [c]
  | backslash : ByteSpelled 0x5c [backslashChar, backslashChar]
  | quote : ByteSpelled 0x22 [backslashChar, quoteChar]
  | hex (a b : Fin 16) (ca cb : Char) (ha : HexChar a ca) (hb : HexChar b cb) :
      ByteSpelled (BitVec.ofNat 8 (16 * a.val + b.val)) [backslashChar, 'x', ca, cb]

/-- The characters between the quotes of a string literal, and the bytes they stand for (R48). -/
inductive TextSpelled : List Byte → List Char → Prop
  | nil : TextSpelled [] []
  | cons {b : Byte} {cs : List Char} {bs : List Byte} {ds : List Char} (head : ByteSpelled b cs) (tail : TextSpelled bs ds) :
      TextSpelled (b :: bs) (cs ++ ds)

/-- A list of byte literals with a comma and a space between them (R48). -/
inductive BytesSpelled : List Byte → List Char → Prop
  | one (a b : Fin 16) (ca cb : Char) (ha : HexChar a ca) (hb : HexChar b cb) :
      BytesSpelled [BitVec.ofNat 8 (16 * a.val + b.val)] ['0', 'x', ca, cb]
  | cons (a b : Fin 16) (ca cb : Char) (ha : HexChar a ca) (hb : HexChar b cb) {bs : List Byte} {ds : List Char}
      (tail : BytesSpelled bs ds) :
      BytesSpelled (BitVec.ofNat 8 (16 * a.val + b.val) :: bs) (['0', 'x', ca, cb, ',', ' '] ++ ds)

/-- A payload operand: a string literal, a repeated one, or a list of byte literals (R48). -/
inductive OperandSpelled : List Byte → List Char → Prop
  | text {bs : List Byte} {cs : List Char} (h : TextSpelled bs cs) :
      OperandSpelled bs (quoteChar :: (cs ++ [quoteChar]))
  | repeated {bs : List Byte} {cs : List Char} (h : TextSpelled bs cs) (digits : List (Fin 10)) (some_digit : digits ≠ []) :
      OperandSpelled (List.replicate (digits.foldl (fun n d => 10 * n + d.val) 0) bs).flatten
        (quoteChar :: (cs ++ quoteChar :: ' ' :: '*' :: ' ' :: digits.map fun d => Char.ofNat (0x30 + d.val)))
  | bytes {bs : List Byte} {cs : List Char} (h : BytesSpelled bs cs) : OperandSpelled bs cs

end Sys2Proof.Machine
end

