-- ==== Sys2Proof/Certificates/Slice0/Obligations.lean ====
section
/-! DEFINITION. The statements for the provers. Each docstring names the rules of spec/ it formalises; what rests on a
choice of the model says so and names the log entry. -/

open Sys2Proof Sys2Proof.Machine

/-! Reset -/

/-- R26: every context of the platform after reset holds the values of the table (`buf` is unspecified there and not
spoken of), for every number of contexts (R102). -/
def Obligations.ResetLeavesSpecValues : Prop :=
  ∀ extra : Nat, (State.resetWith extra).engines.length = extra + 1 ∧
    ∀ e ∈ (State.resetWith extra).engines,
      e.ctx.h = #v[0x6a09e667, 0xbb67ae85, 0x3c6ef372, 0xa54ff53a, 0x510e527f, 0x9b05688c, 0x1f83d9ab, 0x5be0cd19] ∧
      e.ctx.len = 0 ∧ e.ctx.bitLen = 0 ∧ e.ctx.dig = none ∧ e.ctx.phase = .initialized ∧ e.ctx.fault = false

/-- R105: the platform's reset of context `k`, which finds it between commands, sets every field to the value of R26 and
discards a partial frame; afterwards the context waits for the first byte of a frame. That a reset names one context is
the model's reading (log entry 9). -/
def Obligations.ResetEventRestoresContext : Prop :=
  ∀ (s : State) (k : Nat) (later : List Input) (e : Engine),
    s.fetch = .incomplete → s.inputs = .reset k :: later → s.engines[k]? = some e →
    ∃ t, step s = .next t ∧ t.index = k ∧ t.inputs = later ∧
      t.engine.ctx.h = #v[0x6a09e667, 0xbb67ae85, 0x3c6ef372, 0xa54ff53a, 0x510e527f, 0x9b05688c, 0x1f83d9ab, 0x5be0cd19] ∧
      t.engine.ctx.len = 0 ∧ t.engine.ctx.bitLen = 0 ∧ t.engine.ctx.dig = none ∧
      t.engine.ctx.phase = .initialized ∧ t.engine.ctx.fault = false ∧
      t.engine.cmdPort = [] ∧ t.fetch = .incomplete

/-- 70_reset_and_hazards.md §1 (R106, which the spec marks as derived): reset and CREATE give the same fields, except that CREATE leaves FAULT as it was (and `buf`, of which neither
rule speaks). -/
def Obligations.CreateMatchesReset : Prop :=
  ∀ s : State, ∃ t, exec .create s = .next t ∧
    ({ t.engine.ctx with buf := Context.reset.buf, fault := Context.reset.fault } : Context) = Context.reset ∧
    t.engine.ctx.fault = s.engine.ctx.fault

/-! Frames -/

/-- 95_test_vectors.md §2.11: the frames written out there decode to the commands they stand for, and 0x07 to none. -/
def Obligations.DecodesWrittenFrames : Prop :=
  decodeFrame [0x01] = .command .create [] ∧
  decodeFrame [0x02, 0x00, 0x00, 0x00, 0x00] = .command (.update []) [] ∧
  decodeFrame [0x02, 0x00, 0x00, 0x00, 0x03, 0x61, 0x62, 0x63] = .command (.update [0x61, 0x62, 0x63]) [] ∧
  decodeFrame ([0x02, 0x00, 0x00, 0x00, 0x38] ++ List.replicate 56 0x61) =
    .command (.update (List.replicate 56 0x61)) [] ∧
  decodeFrame [0x03] = .command .finalize [] ∧
  decodeFrame [0x04] = .command .digest [] ∧
  decodeFrame [0x05] = .command .hexDigest [] ∧
  decodeFrame [0x07] = .reserved 0x07 []

/-- R42, and R47, which the spec marks as derived: all eight bits of `OP` are decoded, and a byte that begins a frame is either one of the five opcodes or
reserved, whatever follows it. -/
def Obligations.OpcodeBytesAreExact : Prop :=
  ∀ (op : Byte) (tail : List Byte),
    (decodeFrame (op :: tail) = .command .create tail ↔ op = 0x01) ∧
    (decodeFrame (op :: tail) = .command .finalize tail ↔ op = 0x03) ∧
    (decodeFrame (op :: tail) = .command .digest tail ↔ op = 0x04) ∧
    (decodeFrame (op :: tail) = .command .hexDigest tail ↔ op = 0x05) ∧
    (decodeFrame (op :: tail) = .reserved op tail ↔ (op = 0x00 ∨ 0x06 ≤ op.toNat)) ∧
    (((∃ data rest, decodeFrame (op :: tail) = .command (.update data) rest) ∨
      decodeFrame (op :: tail) = .incomplete) ↔ op = 0x02)

/-- R43: `N` is bytes 1 to 4 of an UPDATE frame as an unsigned big-endian number, and `DATA` the `N` bytes after them;
`N = 0` is legal. -/
def Obligations.UpdateOperandAssembly : Prop :=
  ∀ (n0 n1 n2 n3 : Byte) (data rest : List Byte),
    data.length = n0.toNat * 2 ^ 24 + n1.toNat * 2 ^ 16 + n2.toNat * 2 ^ 8 + n3.toNat →
    decodeFrame (0x02 :: n0 :: n1 :: n2 :: n3 :: (data ++ rest)) = .command (.update data) rest

/-- R41: what the decoder consumes is the length found from the first byte, 1 or `5 + N`. -/
def Obligations.FrameLengthIsConsumed : Prop :=
  ∀ (bs : List Byte),
    (∀ i rest, decodeFrame bs = .command i rest →
      frameLength bs = some (bs.length - rest.length) ∧ rest.length < bs.length ∧
      bs.length - rest.length = (match i with
        | .update data => 5 + data.length
        | .create => 1
        | .finalize => 1
        | .digest => 1
        | .hexDigest => 1)) ∧
    (∀ op rest, decodeFrame bs = .reserved op rest → frameLength bs = some 1 ∧ bs = op :: rest)

/-- R41, R43: decoding the frame of any command that spells one gives it back, with every payload, and leaves what
follows the frame. -/
def Obligations.DecodeEncodeRoundTrip : Prop :=
  ∀ (i : Instr) (rest : List Byte), i.WellFormed → decodeFrame (encode i ++ rest) = .command i rest

/-- R47 (which the spec marks as derived), D2: no command is encoded twice: whatever decodes to a command is that command's one frame. -/
def Obligations.DecodedBytesAreTheFrame : Prop :=
  ∀ (bs : List Byte) (i : Instr) (rest : List Byte),
    decodeFrame bs = .command i rest → i.WellFormed ∧ bs = encode i ++ rest

/-- R50: the decoder calls a byte sequence incomplete exactly when it is a frame of a command cut short. -/
def Obligations.IncompleteIsCutShort : Prop :=
  ∀ bs : List Byte, decodeFrame bs = .incomplete ↔
    ∃ (i : Instr) (missing : List Byte), i.WellFormed ∧ missing ≠ [] ∧ bs ++ missing = encode i

/-! Steps -/

/-- R51: a step whose port holds a complete frame of a command takes the frame off the port and executes the command. -/
def Obligations.StepRunsDecodedFrame : Prop :=
  ∀ (s : State) (i : Instr) (rest : List Byte), decodeFrame s.engine.cmdPort = .command i rest →
    step s = exec i { s with engine := { s.engine with cmdPort := rest } }

/-- R11, R36, R51: command frames on a port are executed one a step, in the order they were issued: that many steps are
the commands one after the other. (A host that keeps R108 has one frame there; frames sent ahead are log entry 1.) -/
def Obligations.StepsComposeSequentially : Prop :=
  ∀ (cmds : List Instr) (s : State) (rest : List Byte), (∀ i ∈ cmds, i.WellFormed) →
    Sys2Proof.core.run cmds.length (s.withPort (cmds.flatMap encode ++ rest)) = execAll cmds (s.withPort rest)

/-- R46: a frame with a reserved opcode is one byte, is rejected with E_RESERVED (0x01), changes no field of the context
except FAULT, and consumes no further bytes. -/
def Obligations.ReservedOpcodeRejected : Prop :=
  ∀ (s : State) (op : Byte) (rest : List Byte), s.engine.cmdPort = op :: rest → (op = 0x00 ∨ 0x06 ≤ op.toNat) →
    step s = .next { s with engine := { s.engine with
      ctx := { s.engine.ctx with fault := true }, cmdPort := rest,
      respPort := s.engine.respPort ++ [.error .reserved], pc := s.engine.pc + 1 } } ∧
    (Response.error .reserved).bytes = [0x01]

/-- R50, R104: while the frame on the selected port is cut short no command is executed: the state stays as it is until an
input arrives (that the machine steps to the same state is the model's form of waiting, log entry 6), and bytes the host
sends to a context join those on its port. -/
def Obligations.PartialFrameWaits : Prop :=
  ∀ s : State, s.fetch = .incomplete →
    (s.inputs = [] → step s = .next s) ∧
    (∀ k bs later e, s.inputs = .bytes k bs :: later → s.engines[k]? = some e →
      ∃ t, step s = .next t ∧ t.index = k ∧ t.inputs = later ∧ t.engine = { e with cmdPort := e.cmdPort ++ bs })

/-- R90, R96: no command stops the machine, whatever its operands and the state. -/
def Obligations.EveryCommandCompletes : Prop :=
  ∀ (i : Instr) (s : State), ∃ (c : Context) (r : Response), exec i s = .next { s with engine :=
    { s.engine with ctx := c, respPort := s.engine.respPort ++ [r], pc := s.engine.pc + 1 } }

/-- R90, R104: a step gives a next state, but where it would deliver an input to a context the platform does not have (the
model's stop, log entry 10). -/
def Obligations.StepStopsOnlyAtMissingContext : Prop :=
  ∀ s : State, (∃ t, step s = .next t) ∨
    ∃ k, s.actor = some k ∧ s.engines[k]? = none ∧ s.fetch = .incomplete ∧ step s = .fault (.noSuchContext k)

/-- The word of the opcode table placed on the port is the command the next step executes (log entry 7). -/
def Obligations.PlacedWordIsExecuted : Prop :=
  ∀ (s : State) (nbits w : Nat) (i : Instr), decodeTableWord nbits w = some i →
    step (s.withFetchWord nbits w) = exec i s

/-! The commands -/

/-- R52: CREATE re-initialises the context in any phase, writes neither `buf` nor FAULT, and answers OK. -/
def Obligations.CreateRule : Prop :=
  encode .create = [0x01] ∧
  ∀ s : State, exec .create s = .next { s with engine := { s.engine with
    ctx := { s.engine.ctx with h := iv, len := 0, bitLen := 0, dig := none, phase := .initialized },
    respPort := s.engine.respPort ++ [.ok []], pc := s.engine.pc + 1 } }

/-- R53: UPDATE absorbs its payload byte by byte and moves to Accumulating, even for an empty payload, and is rejected in
Finalized; its frame is `OP`, `N` big-endian in four bytes, and the payload. (A longer payload has no frame.) -/
def Obligations.UpdateRule : Prop :=
  ∀ data : List Byte, data.length ≤ 2 ^ 32 - 1 →
    encode (.update data) =
      [0x02, BitVec.ofNat 8 (data.length / 2 ^ 24), BitVec.ofNat 8 (data.length / 2 ^ 16),
        BitVec.ofNat 8 (data.length / 2 ^ 8), BitVec.ofNat 8 data.length] ++ data ∧
    (∀ s : State, s.engine.ctx.phase ≠ .finalized → exec (.update data) s = .next { s with engine := { s.engine with
      ctx := { data.foldl absorb s.engine.ctx with phase := .accumulating },
      respPort := s.engine.respPort ++ [.ok []], pc := s.engine.pc + 1 } }) ∧
    (∀ s : State, s.engine.ctx.phase = .finalized → exec (.update data) s = .next { s with engine := { s.engine with
      ctx := { s.engine.ctx with fault := true },
      respPort := s.engine.respPort ++ [.error .finalized], pc := s.engine.pc + 1 } })

/-- R54, R55: the byte goes to `buf[L]` and `L` grows by one; when it was the 64th the full buffer is transformed, 512 is
added to `bitLen` modulo 2^64, and `L` is 0. -/
def Obligations.AbsorbRule : Prop :=
  ∀ (c : Context) (x : Byte),
    (∀ room : c.len.val + 1 < 64, absorb c x =
      { c with buf := c.buf.set c.len.val x c.len.isLt, len := ⟨c.len.val + 1, room⟩ }) ∧
    (c.len.val + 1 = 64 → absorb c x =
      { c with buf := c.buf.set c.len.val x c.len.isLt, len := 0, bitLen := c.bitLen + 512,
               h := transform c.h (c.buf.set c.len.val x c.len.isLt) })

/-- R56 (which the spec marks as derived): UPDATE runs `floor((L0 + N) / 64)` Transforms, on the complete blocks of the buffered bytes followed by the payload
in message order; `bitLen` grows by 512 for each, `L` is `(L0 + N) mod 64`, and the bytes left over stand in the buffer. -/
def Obligations.UpdateTransformsWholeBlocks : Prop :=
  ∀ (data : List Byte) (s : State), s.engine.ctx.phase ≠ .finalized →
    ∃ t, exec (.update data) s = .next t ∧
      let c := s.engine.ctx
      let stream := c.buf.toList.take c.len.val ++ data
      (fullBlocks stream).length = (c.len.val + data.length) / 64 ∧
      t.engine.ctx.h = (fullBlocks stream).foldl transform c.h ∧
      t.engine.ctx.bitLen = c.bitLen + BitVec.ofNat 64 (512 * ((c.len.val + data.length) / 64)) ∧
      t.engine.ctx.len.val = (c.len.val + data.length) % 64 ∧
      (∀ j (_ : j < 64), j < t.engine.ctx.len.val →
        stream[64 * ((c.len.val + data.length) / 64) + j]? = some t.engine.ctx.buf[j]) ∧
      t.engine.ctx.phase = .accumulating

/-- R57 (which the spec marks as derived): UPDATE `x` then UPDATE `y` leaves the same context as UPDATE `x ++ y`, from every context that is not Finalized.
(The two differ in the responses: two against one. For an `x ++ y` that no frame holds this is the model's meaning of a longer
term, log entry 8.) -/
def Obligations.StreamingEquivalence : Prop :=
  ∀ (x y : List Byte) (s : State), s.engine.ctx.phase ≠ .finalized →
    ∃ t u v, exec (.update x) s = .next t ∧ exec (.update y) t = .next u ∧ exec (.update (x ++ y)) s = .next v ∧
      u.engine.ctx = v.engine.ctx

/-- R58: FINALIZE captures the bit count, marks the end with 0x80, pads one block or two by the fill, and closes; it is
rejected in Finalized. -/
def Obligations.FinalizeRule : Prop :=
  encode .finalize = [0x03] ∧
  ∀ s : State,
    let c := s.engine.ctx
    (c.phase ≠ .finalized → exec .finalize s = .next { s with engine := { s.engine with
      ctx := close (c.bitLen + BitVec.ofNat 64 (8 * c.len.val))
        (if c.len.val ≤ 55 then padOne c.len.val { c with buf := c.buf.set c.len.val 0x80 c.len.isLt }
         else padTwo c.len.val { c with buf := c.buf.set c.len.val 0x80 c.len.isLt }),
      respPort := s.engine.respPort ++ [.ok []], pc := s.engine.pc + 1 } }) ∧
    (c.phase = .finalized → exec .finalize s = .next { s with engine := { s.engine with
      ctx := { c with fault := true },
      respPort := s.engine.respPort ++ [.error .finalized], pc := s.engine.pc + 1 } })

/-- R59, R61: with a fill of at most 55 FINALIZE runs one Transform, on the buffered bytes, 0x80, zeros up to byte 56, and
the bit count in 8 bytes, big-endian (R30). -/
def Obligations.FinalizeOneBlock : Prop :=
  ∀ s : State, s.engine.ctx.phase ≠ .finalized → s.engine.ctx.len.val ≤ 55 →
    ∃ t, exec .finalize s = .next t ∧ ∃ last : Block,
      let c := s.engine.ctx
      let total := c.bitLen + BitVec.ofNat 64 (8 * c.len.val)
      last.toList = c.buf.toList.take c.len.val ++ [0x80] ++ List.replicate (55 - c.len.val) 0 ++
        (List.range 8).map (fun k => total.extractLsb' (56 - 8 * k) 8) ∧
      t.engine.ctx = { c with buf := last, h := transform c.h last, phase := .finalized,
                              dig := some (digestOf (transform c.h last)) }

/-- R60, R61: with a fill of 56 or more FINALIZE runs two Transforms: the buffered bytes, 0x80 and zeros; then 56 zeros and
the bit count; the first of them adds nothing to `bitLen`. -/
def Obligations.FinalizeTwoBlocks : Prop :=
  ∀ s : State, s.engine.ctx.phase ≠ .finalized → 56 ≤ s.engine.ctx.len.val →
    ∃ t, exec .finalize s = .next t ∧ ∃ first last : Block,
      let c := s.engine.ctx
      let total := c.bitLen + BitVec.ofNat 64 (8 * c.len.val)
      first.toList = c.buf.toList.take c.len.val ++ [0x80] ++ List.replicate (63 - c.len.val) 0 ∧
      last.toList = List.replicate 56 0 ++ (List.range 8).map (fun k => total.extractLsb' (56 - 8 * k) 8) ∧
      t.engine.ctx = { c with buf := last, h := transform (transform c.h first) last, phase := .finalized,
                              dig := some (digestOf (transform (transform c.h first) last)) }

/-- R62 (which the spec marks as derived): the padded message of `n` bytes has `floor(n / 64)` blocks and one more or two more, as `n mod 64` is at most 55
or not, and its length is a whole number of blocks. -/
def Obligations.TransformCount : Prop :=
  ∀ m : List Byte, (padded m).length % 64 = 0 ∧
    (fullBlocks (padded m)).length = m.length / 64 + (if m.length % 64 ≤ 55 then 1 else 2)

/-- R63: DIGEST answers the 32 digest bytes in Finalized and changes nothing of the context; in another phase it is rejected
with E_NOT_FINALIZED. (That in Finalized there are digest bytes is `MessageKeptByStep`; a state without them is
`EmptyDigestIsNotRead`.) -/
def Obligations.DigestRule : Prop :=
  encode .digest = [0x04] ∧
  ∀ s : State,
    (∀ d, s.engine.ctx.phase = .finalized → s.engine.ctx.dig = some d →
      exec .digest s = .next { s with engine := { s.engine with
        respPort := s.engine.respPort ++ [.ok d.toList], pc := s.engine.pc + 1 } } ∧ d.toList.length = 32) ∧
    (s.engine.ctx.phase ≠ .finalized →
      exec .digest s = .next { s with engine := { s.engine with
        ctx := { s.engine.ctx with fault := true },
        respPort := s.engine.respPort ++ [.error .notFinalized], pc := s.engine.pc + 1 } })

/-- R64, R65: HEXDIGEST answers 64 ASCII characters in Finalized, two lowercase hexadecimal digits for each digest byte in
byte order, the high nibble first, and changes nothing of the context; in another phase it is rejected with
E_NOT_FINALIZED. -/
def Obligations.HexDigestRule : Prop :=
  encode .hexDigest = [0x05] ∧
  ∀ s : State,
    (∀ d, s.engine.ctx.phase = .finalized → s.engine.ctx.dig = some d →
      ∃ text : List Byte, exec .hexDigest s = .next { s with engine := { s.engine with
        respPort := s.engine.respPort ++ [.ok text], pc := s.engine.pc + 1 } } ∧ text.length = 64 ∧
        ∀ i (_ : i < 32), ∃ hi lo, text[2 * i]? = some hi ∧ text[2 * i + 1]? = some lo ∧
          hi.toNat = (if d[i].toNat / 16 ≤ 9 then 0x30 + d[i].toNat / 16 else 0x61 + (d[i].toNat / 16 - 10)) ∧
          lo.toNat = (if d[i].toNat % 16 ≤ 9 then 0x30 + d[i].toNat % 16 else 0x61 + (d[i].toNat % 16 - 10))) ∧
    (s.engine.ctx.phase ≠ .finalized →
      exec .hexDigest s = .next { s with engine := { s.engine with
        ctx := { s.engine.ctx with fault := true },
        respPort := s.engine.respPort ++ [.error .notFinalized], pc := s.engine.pc + 1 } })

/-- 10_state.md §1 (R18): a read of the digest register while it is empty is an error and returns no value. That the error is
E_NOT_FINALIZED in Finalized too, a state no run reaches, is the model's reading (log entry 5). -/
def Obligations.EmptyDigestIsNotRead : Prop :=
  ∀ (i : Instr) (s : State), i = .digest ∨ i = .hexDigest → s.engine.ctx.dig = none →
    exec i s = .next { s with engine := { s.engine with
      ctx := { s.engine.ctx with fault := true },
      respPort := s.engine.respPort ++ [.error .notFinalized], pc := s.engine.pc + 1 } }

/-- R66 (which the spec marks as derived): the phase machine. Every command leaves the phase and answers the status of its cell, and a reserved opcode leaves
the phase and answers E_RESERVED. (In Finalized the digest register is not empty: R63, and `MessageKeptByStep`.) -/
def Obligations.PhaseMachine : Prop :=
  (∀ (i : Instr) (s : State), (s.engine.ctx.phase = .finalized → s.engine.ctx.dig ≠ none) →
    ∃ t r, exec i s = .next t ∧ t.engine.respPort = s.engine.respPort ++ [r] ∧
      t.engine.ctx.phase = (phaseTable s.engine.ctx.phase i).1 ∧
      r.bytes.head? = some (phaseTable s.engine.ctx.phase i).2) ∧
  (∀ (s : State) (op : Byte) (rest : List Byte), s.engine.cmdPort = op :: rest → (op = 0x00 ∨ 0x06 ≤ op.toNat) →
    ∃ t r, step s = .next t ∧ t.engine.respPort = s.engine.respPort ++ [r] ∧
      t.engine.ctx.phase = s.engine.ctx.phase ∧ r.bytes = [0x01])

/-- R45: a response is its status byte, 0x00 to 0x03, and data follow only a success of DIGEST (32 bytes) or HEXDIGEST
(64 bytes). -/
def Obligations.ResponseFrames : Prop :=
  (∀ data, (Response.ok data).bytes = 0x00 :: data) ∧
  (Response.error .reserved).bytes = [0x01] ∧ (Response.error .finalized).bytes = [0x02] ∧
  (Response.error .notFinalized).bytes = [0x03] ∧
  ∀ (i : Instr) (s t : State) (data : List Byte), exec i s = .next t →
    t.engine.respPort = s.engine.respPort ++ [.ok data] →
    data.length = (match i with
      | .create => 0
      | .update _ => 0
      | .finalize => 0
      | .digest => 32
      | .hexDigest => 64)

/-! Frames of the commands -/

/-- R37, R102, R112: what no command touches: the other contexts, the inputs to come, and the bytes on the port behind its
frame; each adds exactly one response and one to the command index (R22, R45). -/
def Obligations.CommandFrame : Prop :=
  ∀ (i : Instr) (s t : State), exec i s = .next t →
    t.lower = s.lower ∧ t.upper = s.upper ∧ t.inputs = s.inputs ∧ t.engine.cmdPort = s.engine.cmdPort ∧
    t.engine.pc = s.engine.pc + 1 ∧ ∃ r, t.engine.respPort = s.engine.respPort ++ [r]

/-- R92: a command that answers an error keeps every field of the context but FAULT, which becomes 1, and the response is
the code alone; so does the command of a reserved opcode. -/
def Obligations.ErrorFrame : Prop :=
  (∀ (i : Instr) (s t : State) (code : ErrorCode),
    exec i s = .next t → t.engine.respPort = s.engine.respPort ++ [.error code] →
    t.engine.ctx = { s.engine.ctx with fault := true } ∧ (Response.error code).bytes = [code.byte]) ∧
  (∀ (s : State) (op : Byte) (rest : List Byte), s.fetch = .reserved op rest →
    ∃ t, step s = .next t ∧ t.engine.ctx = { s.engine.ctx with fault := true } ∧
      t.engine.respPort = s.engine.respPort ++ [.error .reserved])

/-- R52: CREATE leaves every buffer byte and FAULT as they were. -/
def Obligations.CreateFrame : Prop :=
  ∀ s t : State, exec .create s = .next t →
    (∀ j (_ : j < 64), t.engine.ctx.buf[j] = s.engine.ctx.buf[j]) ∧ t.engine.ctx.fault = s.engine.ctx.fault

/-- R53 to R55: an accepted UPDATE leaves the digest register and FAULT as they were, every buffer byte it stores no payload
byte to, and, when it fills no block, the chaining state and the bit counter. -/
def Obligations.UpdateFrame : Prop :=
  ∀ (data : List Byte) (s t : State), s.engine.ctx.phase ≠ .finalized → exec (.update data) s = .next t →
    t.engine.ctx.dig = s.engine.ctx.dig ∧ t.engine.ctx.fault = s.engine.ctx.fault ∧
    (∀ j (_ : j < 64), (∀ k, k < data.length → (s.engine.ctx.len.val + k) % 64 ≠ j) →
      t.engine.ctx.buf[j] = s.engine.ctx.buf[j]) ∧
    (s.engine.ctx.len.val + data.length < 64 →
      t.engine.ctx.h = s.engine.ctx.h ∧ t.engine.ctx.bitLen = s.engine.ctx.bitLen)

/-- R58 to R61, D16: an accepted FINALIZE leaves `L`, `bitLen` and FAULT as they were, and with a fill of at most 55 the
buffered bytes too. -/
def Obligations.FinalizeFrame : Prop :=
  ∀ s t : State, s.engine.ctx.phase ≠ .finalized → exec .finalize s = .next t →
    t.engine.ctx.len = s.engine.ctx.len ∧ t.engine.ctx.bitLen = s.engine.ctx.bitLen ∧
    t.engine.ctx.fault = s.engine.ctx.fault ∧
    (s.engine.ctx.len.val ≤ 55 → ∀ j (_ : j < 64), j < s.engine.ctx.len.val →
      t.engine.ctx.buf[j] = s.engine.ctx.buf[j])

/-- R34, R63, R64: DIGEST and HEXDIGEST never change a field of the context but FAULT, and not FAULT either when they
succeed; so a second read answers the same. -/
def Obligations.ReadFrame : Prop :=
  ∀ (i : Instr) (s t : State), i = .digest ∨ i = .hexDigest → exec i s = .next t →
    { t.engine.ctx with fault := s.engine.ctx.fault } = s.engine.ctx ∧
    (∀ data, t.engine.respPort = s.engine.respPort ++ [.ok data] →
      t.engine.ctx = s.engine.ctx ∧
      ∃ u, exec i t = .next u ∧ u.engine.respPort = t.engine.respPort ++ [.ok data])

/-! The Transform -/

/-- R89 with R70 and R71: each round constant is the first 32 bits of the fraction of the cube root of its prime, and each
initial value those of the square root: `q` is the root scaled by 2^32 and rounded down. -/
def Obligations.ConstantsAreRootFractions : Prop :=
  let primes := (List.range 312).filter fun p => 2 ≤ p ∧ ∀ d ∈ List.range p, d < 2 ∨ p % d ≠ 0
  primes.length = 64 ∧ roundConstants.length = 64 ∧
  (∀ i (_ : i < 64), ∃ p k q, primes[i]? = some p ∧ roundConstants[i]? = some k ∧
    q ^ 3 ≤ p * 2 ^ 96 ∧ p * 2 ^ 96 < (q + 1) ^ 3 ∧ k.toNat = q % 2 ^ 32) ∧
  (∀ i (_ : i < 8), ∃ p q, primes[i]? = some p ∧
    q ^ 2 ≤ p * 2 ^ 64 ∧ p * 2 ^ 64 < (q + 1) ^ 2 ∧ iv[i].toNat = q % 2 ^ 32)

/-- R72, R73: bit `i` of `ROTR(x, n)` is bit `(i + n) mod 32` of `x`, and `SHR` fills with zeros. -/
def Obligations.RotateAndShiftBits : Prop :=
  ∀ (x : Word) (n i : Nat), 0 < n → n < 32 → i < 32 →
    (rotr x n).getLsbD i = x.getLsbD ((i + n) % 32) ∧
    (shr x n).getLsbD i = (if i + n < 32 then x.getLsbD (i + n) else false)

/-- R74, R75: each bit of Ch is `y`'s bit where `x`'s is 1 and `z`'s where it is 0; each bit of Maj is the majority. -/
def Obligations.ChoiceAndMajorityBits : Prop :=
  ∀ (x y z : Word) (i : Nat),
    (ch x y z).getLsbD i = (if x.getLsbD i then y.getLsbD i else z.getLsbD i) ∧
    ((maj x y z).getLsbD i = true ↔
      2 ≤ (x.getLsbD i).toNat + (y.getLsbD i).toNat + (z.getLsbD i).toNat)

/-- R76 to R79: each bit of the mixing functions is the exclusive or of the three bits of `x` that the rotations and the
shift bring to its place. -/
def Obligations.MixingFunctionBits : Prop :=
  ∀ (x : Word) (i : Nat), i < 32 →
    (bsig0 x).getLsbD i =
      ((x.getLsbD ((i + 2) % 32) ^^ x.getLsbD ((i + 13) % 32)) ^^ x.getLsbD ((i + 22) % 32)) ∧
    (bsig1 x).getLsbD i =
      ((x.getLsbD ((i + 6) % 32) ^^ x.getLsbD ((i + 11) % 32)) ^^ x.getLsbD ((i + 25) % 32)) ∧
    (ssig0 x).getLsbD i =
      ((x.getLsbD ((i + 7) % 32) ^^ x.getLsbD ((i + 18) % 32)) ^^ (decide (i + 3 < 32) && x.getLsbD (i + 3))) ∧
    (ssig1 x).getLsbD i =
      ((x.getLsbD ((i + 17) % 32) ^^ x.getLsbD ((i + 19) % 32)) ^^ (decide (i + 10 < 32) && x.getLsbD (i + 10)))

/-- R31, and the `BE32` of R29: words are read big-endian, byte 0 in bits 31:24, and the digest FINALIZE latches is its chaining
state written out big-endian, word 0 first. -/
def Obligations.WordsAreBigEndian : Prop :=
  (∀ b0 b1 b2 b3 : Byte,
    (be32 b0 b1 b2 b3).toNat = b0.toNat * 2 ^ 24 + b1.toNat * 2 ^ 16 + b2.toNat * 2 ^ 8 + b3.toNat ∧
    (be32 b0 b1 b2 b3).extractLsb' 24 8 = b0 ∧ (be32 b0 b1 b2 b3).extractLsb' 0 8 = b3) ∧
  (∀ s : State, s.engine.ctx.phase ≠ .finalized → ∃ (t : State) (d : DigestBytes),
    exec .finalize s = .next t ∧ t.engine.ctx.dig = some d ∧
    ∀ (i j : Nat) (_ : i < 8) (_ : j < 4), d[4 * i + j] = t.engine.ctx.h[i].extractLsb' (24 - 8 * j) 8)

/-- R80, R81: the message schedule is 64 words: the 16 big-endian words of the block, and each later word from the four
words named, modulo 2^32. -/
def Obligations.ScheduleWords : Prop :=
  ∀ blk : Block, (schedule blk).length = 64 ∧
    (∀ t (_ : t < 16), (schedule blk)[t]? = some (be32 blk[4 * t] blk[4 * t + 1] blk[4 * t + 2] blk[4 * t + 3])) ∧
    (∀ t, 16 ≤ t → t < 64 → ∃ w2 w7 w15 w16 : Word,
      (schedule blk)[t - 2]? = some w2 ∧ (schedule blk)[t - 7]? = some w7 ∧
      (schedule blk)[t - 15]? = some w15 ∧ (schedule blk)[t - 16]? = some w16 ∧
      (schedule blk)[t]? = some (ssig1 w2 + w7 + ssig0 w15 + w16))

/-- R82 to R85, R69: the Transform starts the working variables as the chaining state, runs exactly 64 rounds in order, each
with its own constant and schedule word, and adds the final variables to the chaining state on entry, modulo 2^32. -/
def Obligations.TransformRounds : Prop :=
  ∀ (h : Chain) (blk : Block), ∃ v : Nat → Work,
    v 0 = ⟨h[0], h[1], h[2], h[3], h[4], h[5], h[6], h[7]⟩ ∧
    (∀ t, t < 64 → ∃ k w t1 t2 : Word, roundConstants[t]? = some k ∧ (schedule blk)[t]? = some w ∧
      t1 = (v t).h + bsig1 (v t).e + ch (v t).e (v t).f (v t).g + k + w ∧
      t2 = bsig0 (v t).a + maj (v t).a (v t).b (v t).c ∧
      v (t + 1) = ⟨t1 + t2, (v t).a, (v t).b, (v t).c, (v t).d + t1, (v t).e, (v t).f, (v t).g⟩) ∧
    transform h blk = #v[h[0] + (v 64).a, h[1] + (v 64).b, h[2] + (v 64).c, h[3] + (v 64).d,
      h[4] + (v 64).e, h[5] + (v 64).f, h[6] + (v 64).g, h[7] + (v 64).h]

/-! Status -/

/-- R19, R24: PHASE in bits 1:0, with 0b00 for Initialized, 0b01 for Accumulating and 0b10 for Finalized, so never 0b11; FAULT in
bit 2, the reserved bits 0; a context after reset reads 0. -/
def Obligations.StatusLayout : Prop :=
  (∀ c : Context,
    (c.phase = .initialized → c.status.extractLsb' 0 2 = 0b00) ∧
    (c.phase = .accumulating → c.status.extractLsb' 0 2 = 0b01) ∧
    (c.phase = .finalized → c.status.extractLsb' 0 2 = 0b10) ∧
    c.status.extractLsb' 0 2 ≠ 0b11 ∧ c.status.getLsbD 2 = c.fault ∧ c.status.extractLsb' 3 5 = 0) ∧
  Context.reset.status = 0

/-- R93: no step clears the FAULT of any context, but the delivery of a reset. -/
def Obligations.FaultIsSticky : Prop :=
  ∀ (s t : State) (k : Nat) (e : Engine), step s = .next t → s.engines[k]? = some e → e.ctx.fault = true →
    (∀ j, ¬ (s.fetch = .incomplete ∧ s.inputs.head? = some (.reset j))) →
    ∃ e', t.engines[k]? = some e' ∧ e'.ctx.fault = true

/-! The message of a context -/

/-- R28, R58 to R62: a context that holds a message holds the empty one after CREATE and the longer one after an accepted
UPDATE, and FINALIZE gives the digest of the whole padded message, however it was split. -/
def Obligations.CommandsBuildTheMessage : Prop :=
  ∀ (s : State) (m : List Byte), s.engine.ctx.Holds m →
    (∃ t, exec .create s = .next t ∧ t.engine.ctx.Holds []) ∧
    (∀ data, s.engine.ctx.phase ≠ .finalized →
      ∃ t, exec (.update data) s = .next t ∧ t.engine.ctx.Holds (m ++ data)) ∧
    (s.engine.ctx.phase ≠ .finalized →
      ∃ t, exec .finalize s = .next t ∧ t.engine.ctx.Holds m ∧ t.engine.ctx.dig = some (hashMessage m)) ∧
    (s.engine.ctx.phase = .finalized →
      ∃ t, exec .digest s = .next t ∧
        t.engine.respPort = s.engine.respPort ++ [.ok (hashMessage m).toList] ∧ t.engine.ctx.Holds m)

/-- 70_reset_and_hazards.md §2 (R107, which the spec marks as derived): a host that follows the lifecycle CREATE, any UPDATEs,
FINALIZE, DIGEST receives no error, in whatever phase the context was, and reads the digest of the concatenated chunks. Every
chunk fits a frame, so each is one UPDATE and one response. -/
def Obligations.LifecycleHashesTheChunks : Prop :=
  ∀ (chunks : List (List Byte)) (s : State), (∀ d ∈ chunks, d.length ≤ 2 ^ 32 - 1) → s.Safe →
    ∃ t, execAll (.create :: (chunks.map .update ++ [.finalize, .digest])) s = .next t ∧ t.Safe ∧
      t.engine.observe = ⟨s.engine.respPort ++ (List.replicate (chunks.length + 2) (.ok []) ++
        [.ok (hashMessage chunks.flatten).toList]), false, .finalized⟩

/-- R16 to R19, R28: every step keeps that each context holds a message: the chaining state is that of the message's complete
blocks, the rest of it stands in the buffer, the bit counter counts the blocks, and in Finalized the digest register holds
the digest of the whole padded message. -/
def Obligations.MessageKeptByStep : Prop :=
  ∀ s t : State, s.HoldsMessages → step s = .next t → t.HoldsMessages

/-- R26, R28: after reset every context holds the empty message. -/
def Obligations.MessageAtReset : Prop :=
  ∀ extra : Nat, (State.resetWith extra).HoldsMessages ∧
    ∀ e ∈ (State.resetWith extra).engines, e.ctx.Holds []

/-- R20, R45, R92, R93, R22: every step keeps that each context has sent one response for each command, and that its FAULT is 1
exactly when one of these reported an error. -/
def Obligations.AccountKeptByStep : Prop :=
  ∀ s t : State, s.Accounted → step s = .next t → t.Accounted

/-- R26: at reset FAULT is 0 in every context, and it is accounted for: nothing has been answered and no command has run. That the
list of responses and the command index are kept in the state from reset on, and are empty and 0 there, is the model's
(log entry 12). -/
def Obligations.AccountAtReset : Prop :=
  ∀ extra : Nat, (State.resetWith extra).Accounted ∧
    ∀ e ∈ (State.resetWith extra).engines, e.respPort = [] ∧ e.pc = 0 ∧ e.ctx.fault = false

/-- The model's order of service (log entry 2), of which the spec says nothing: every step keeps that only the selected context
may have a complete frame on its port, so none is left standing when another context is selected. -/
def Obligations.OthersKeepWaiting : Prop :=
  ∀ s t : State, s.OthersWait → step s = .next t → t.OthersWait

/-! Isolation -/

/-- R102: a step changes only the context it acts on; the number of contexts never changes. (That a reset acts on one context
is the model's reading, log entry 9.) -/
def Obligations.StepTouchesOneContext : Prop :=
  ∀ s t : State, step s = .next t → t.engines.length = s.engines.length ∧
    ∀ k, s.actor ≠ some k → t.engines[k]? = s.engines[k]?

/-- R102, R37: what a command does to its context, and what it answers, does not depend on the other contexts or on the
inputs to come. -/
def Obligations.ContextsShareNothing : Prop :=
  ∀ (i : Instr) (s s' t t' : State), s.engine = s'.engine → exec i s = .next t → exec i s' = .next t' →
    t.engine = t'.engine

/-- R16, R112: buffer bytes at and beyond `L` are never read: two states that differ only in them give, command by command,
the same responses and states that again differ only in such bytes. -/
def Obligations.StaleBytesAreInvisible : Prop :=
  ∀ (i : Instr) (s s' t : State), s.SameButStale s' → exec i s = .next t →
    ∃ t', exec i s' = .next t' ∧ t.SameButStale t' ∧ t.engine.respPort = t'.engine.respPort

/-! Textual syntax -/

/-- R48: what a line gives, the mnemonic in any case and with or without a comment at its end: a command without an operand,
UPDATE with any payload operand that fits a frame (a longer one is refused), and one raw byte. How an operand is written follows
R48's examples; the case of hexadecimal digits is the model's (log entry 13). -/
def Obligations.AssembledLinesGiveCommands : Prop :=
  ∀ m tail : List Char, (tail = [] ∨ ∃ note, tail = ' ' :: ';' :: note) →
    (m.map Char.toUpper = "CREATE".toList → assembleLine (m ++ tail) = some [.command .create]) ∧
    (m.map Char.toUpper = "FINALIZE".toList → assembleLine (m ++ tail) = some [.command .finalize]) ∧
    (m.map Char.toUpper = "DIGEST".toList → assembleLine (m ++ tail) = some [.command .digest]) ∧
    (m.map Char.toUpper = "HEXDIGEST".toList → assembleLine (m ++ tail) = some [.command .hexDigest]) ∧
    (∀ x op, OperandSpelled x op → m.map Char.toUpper = "UPDATE".toList →
      assembleLine (m ++ ' ' :: (op ++ tail)) =
        if x.length ≤ 2 ^ 32 - 1 then some [.command (.update x)] else none) ∧
    (∀ a b ca cb, HexChar a ca → HexChar b cb → m.map Char.toUpper = ".BYTE".toList →
      assembleLine (m ++ ' ' :: ('0' :: 'x' :: ca :: cb :: tail)) = some [.rawByte (BitVec.ofNat 8 (16 * a.val + b.val))])

/-- R49: for every operand text, `HASH x` has the frame stream of the three lines `CREATE`, `UPDATE x`, `FINALIZE`, and `HASHHEX x`
that of these and `HEXDIGEST`. -/
def Obligations.PseudoCommandsExpand : Prop :=
  ∀ m x : List Char,
    (m.map Char.toUpper = "HASH".toList →
      assemble [m ++ ' ' :: x] =
        assemble ["CREATE".toList, "UPDATE".toList ++ ' ' :: x, "FINALIZE".toList]) ∧
    (m.map Char.toUpper = "HASHHEX".toList →
      assemble [m ++ ' ' :: x] =
        assemble ["CREATE".toList, "UPDATE".toList ++ ' ' :: x, "FINALIZE".toList, "HEXDIGEST".toList])

/-- R41, R48: an assembled line gives one raw byte or a list of commands, and every command it gives has a frame, which decodes to
it. The line's frames, put on one port together, are executed as its commands, in order: a HASH or HASHHEX line has several, and
that they may stand there ahead of the responses is the model's (log entry 1; R108 and D1 leave such a host outside). -/
def Obligations.AssembledCommandsSpellFrames : Prop :=
  ∀ (line : List Char) (items : List AsmItem), assembleLine line = some items →
    (∀ i, .command i ∈ items →
      i.WellFormed ∧ ∀ rest, decodeFrame ((AsmItem.command i).frame ++ rest) = .command i rest) ∧
    ((∃ b, items = [.rawByte b]) ∨
      ∃ cmds : List Instr, items = cmds.map .command ∧ ∀ (s : State) (rest : List Byte),
        Sys2Proof.core.run cmds.length (s.withPort (items.flatMap AsmItem.frame ++ rest)) =
          execAll cmds (s.withPort rest))
end

