-- ==== Sys2Proof/Laws/Decode.lean ====
section
/-! SUPPORT. What the decoder and the encoder do, said once: byte order, opcodes, and the shape of every frame the decoder
answers. -/

namespace Sys2Proof

open Machine

/-! Byte order (R29, R10) -/

namespace Machine

/-- A number below 2^32 put together from its bytes. -/
theorem digits_eq (n : Nat) (h : n < 4294967296) :
    n / 16777216 % 256 * 16777216 + n / 65536 % 256 * 65536 + n / 256 % 256 * 256 + n % 256 = n := by omega

/-- The bytes of a number put together from bytes. -/
theorem digit_of_sum (a b c d : Nat) (ha : a < 256) (hb : b < 256) (hc : c < 256) (hd : d < 256) :
    let n := a * 16777216 + b * 65536 + c * 256 + d
    n / 16777216 % 256 = a ∧ n / 65536 % 256 = b ∧ n / 256 % 256 = c ∧ n % 256 = d := by
  dsimp only
  omega

/-- The number a byte of a word is. -/
theorem extract_byte_toNat (w : Word) (s : Nat) : (w.extractLsb' s 8).toNat = w.toNat / 2 ^ s % 256 := by
  rw [BitVec.extractLsb'_toNat, Nat.shiftRight_eq_div_pow]

/-- A byte appended below a number. -/
theorem append_byte_toNat {n : Nat} (x : BitVec n) (b : Byte) : (x ++ b).toNat = x.toNat * 256 + b.toNat := by
  rw [BitVec.toNat_append, ← Nat.shiftLeft_add_eq_or_of_lt b.isLt, Nat.shiftLeft_eq]

/-- The number a big-endian word is: the formula of R10 and R29. -/
theorem be32_toNat (b0 b1 b2 b3 : Byte) :
    (be32 b0 b1 b2 b3).toNat = b0.toNat * 16777216 + b1.toNat * 65536 + b2.toNat * 256 + b3.toNat := by
  rw [be32, append_byte_toNat, append_byte_toNat, append_byte_toNat]
  ring

/-- The four bytes of a word put together again. -/
theorem be32_bytesBE32 (w : Word) :
    be32 (w.extractLsb' 24 8) (w.extractLsb' 16 8) (w.extractLsb' 8 8) (w.extractLsb' 0 8) = w := by
  apply BitVec.eq_of_toNat_eq
  rw [be32_toNat]
  simp only [extract_byte_toNat]
  have h := digits_eq w.toNat w.isLt
  norm_num only at *
  rwa [Nat.div_one]

/-- Every byte of a big-endian word is found at its place. -/
theorem be32_extract (b0 b1 b2 b3 : Byte) :
    (be32 b0 b1 b2 b3).extractLsb' 24 8 = b0 ∧ (be32 b0 b1 b2 b3).extractLsb' 16 8 = b1 ∧
      (be32 b0 b1 b2 b3).extractLsb' 8 8 = b2 ∧ (be32 b0 b1 b2 b3).extractLsb' 0 8 = b3 := by
  obtain ⟨h0, h1, h2, h3⟩ := digit_of_sum b0.toNat b1.toNat b2.toNat b3.toNat b0.isLt b1.isLt b2.isLt b3.isLt
  refine ⟨?_, ?_, ?_, ?_⟩ <;> apply BitVec.eq_of_toNat_eq <;> rw [extract_byte_toNat, be32_toNat]
  · norm_num only at *; exact h0
  · norm_num only at *; exact h1
  · norm_num only at *; exact h2
  · norm_num only at *; rwa [Nat.div_one]

/-- A word's bytes are those it was put together from. -/
theorem bytesBE32_be32 (b0 b1 b2 b3 : Byte) : bytesBE32 (be32 b0 b1 b2 b3) = #v[b0, b1, b2, b3] := by
  obtain ⟨h0, h1, h2, h3⟩ := be32_extract b0 b1 b2 b3
  simp only [bytesBE32, h0, h1, h2, h3]

/-- The bytes of a word, as a list. -/
theorem bytesBE32_toList (w : Word) :
    (bytesBE32 w).toList = [w.extractLsb' 24 8, w.extractLsb' 16 8, w.extractLsb' 8 8, w.extractLsb' 0 8] := rfl

end Machine

/-! Opcodes (R42, R46) -/

theorem decodeOpcode_eq_some (op : Byte) (o : Opcode) : decodeOpcode op = some o ↔ op = o.byte := by
  revert op
  cases o <;> decide +kernel

theorem decodeOpcode_eq_none (op : Byte) : decodeOpcode op = none ↔ (op = 0x00 ∨ 0x06 ≤ op.toNat) := by
  revert op
  decide +kernel

@[simp] theorem decodeOpcode_byte (o : Opcode) : decodeOpcode o.byte = some o :=
  (decodeOpcode_eq_some _ o).mpr rfl

/-! The decoder, opcode by opcode (R41, R50) -/

theorem decodeFrame_nil : decodeFrame [] = .incomplete := rfl

theorem decodeFrame_create (tail : List Byte) : decodeFrame (0x01 :: tail) = .command .create tail := rfl

theorem decodeFrame_update (tail : List Byte) : decodeFrame (0x02 :: tail) = decodeUpdate tail := rfl

theorem decodeFrame_finalize (tail : List Byte) : decodeFrame (0x03 :: tail) = .command .finalize tail := rfl

theorem decodeFrame_digest (tail : List Byte) : decodeFrame (0x04 :: tail) = .command .digest tail := rfl

theorem decodeFrame_hexDigest (tail : List Byte) : decodeFrame (0x05 :: tail) = .command .hexDigest tail := rfl

theorem decodeFrame_reserved {op : Byte} (h : decodeOpcode op = none) (tail : List Byte) :
    decodeFrame (op :: tail) = .reserved op tail := by
  simp only [decodeFrame, h]

/-- An UPDATE frame whose payload has arrived (R43). -/
theorem decodeUpdate_of_length {n0 n1 n2 n3 : Byte} {data : List Byte} (rest : List Byte)
    (h : data.length = (be32 n0 n1 n2 n3).toNat) :
    decodeUpdate (n0 :: n1 :: n2 :: n3 :: (data ++ rest)) = .command (.update data) rest := by
  simp only [decodeUpdate, ← h, List.length_append]
  rw [if_neg (by omega), List.take_left' rfl, List.drop_left' rfl]

/-- What the decoder of UPDATE operands can answer. -/
theorem decodeUpdate_cases (tail : List Byte) :
    (∃ n0 n1 n2 n3 data rest, tail = n0 :: n1 :: n2 :: n3 :: (data ++ rest) ∧
      data.length = (be32 n0 n1 n2 n3).toNat ∧ decodeUpdate tail = .command (.update data) rest) ∨
    (∃ n0 n1 n2 n3 data, tail = n0 :: n1 :: n2 :: n3 :: data ∧ data.length < (be32 n0 n1 n2 n3).toNat ∧
      decodeUpdate tail = .incomplete) ∨
    (tail.length < 4 ∧ decodeUpdate tail = .incomplete) := by
  match tail with
  | [] => exact .inr (.inr ⟨by simp, rfl⟩)
  | [_] => exact .inr (.inr ⟨by simp, rfl⟩)
  | [_, _] => exact .inr (.inr ⟨by simp, rfl⟩)
  | [_, _, _] => exact .inr (.inr ⟨by simp, rfl⟩)
  | n0 :: n1 :: n2 :: n3 :: data =>
    by_cases h : data.length < (be32 n0 n1 n2 n3).toNat
    · exact .inr (.inl ⟨n0, n1, n2, n3, data, rfl, h, by simp only [decodeUpdate, h, if_true]⟩)
    · refine .inl ⟨n0, n1, n2, n3, data.take (be32 n0 n1 n2 n3).toNat, data.drop (be32 n0 n1 n2 n3).toNat, ?_, ?_, ?_⟩
      · rw [List.take_append_drop]
      · rw [List.length_take]; omega
      · simp only [decodeUpdate, h, if_false]

/-- The bytes in front of the decoder whenever it answers a command: one opcode byte, or an UPDATE frame. -/
theorem decodeFrame_command {bs rest : List Byte} {i : Instr} (h : decodeFrame bs = .command i rest) :
    (∃ n0 n1 n2 n3 data, i = .update data ∧ bs = 0x02 :: n0 :: n1 :: n2 :: n3 :: (data ++ rest) ∧
      data.length = (be32 n0 n1 n2 n3).toNat) ∨
    ((i = .create ∨ i = .finalize ∨ i = .digest ∨ i = .hexDigest) ∧ bs = i.opcode.byte :: rest) := by
  cases bs with
  | nil => cases h
  | cons op tail =>
    cases ho : decodeOpcode op with
    | none => rw [decodeFrame_reserved ho] at h; cases h
    | some o =>
      obtain rfl := (decodeOpcode_eq_some op o).mp ho
      cases o with
      | update =>
        change decodeUpdate tail = _ at h
        rcases decodeUpdate_cases tail with ⟨n0, n1, n2, n3, data, r, rfl, hlen, hd⟩ | ⟨n0, n1, n2, n3, data, -, -, hd⟩ | ⟨-, hd⟩
        · rw [hd] at h; cases h; exact .inl ⟨n0, n1, n2, n3, data, rfl, rfl, hlen⟩
        · rw [hd] at h; cases h
        · rw [hd] at h; cases h
      | create => cases h; exact .inr ⟨.inl rfl, rfl⟩
      | finalize => cases h; exact .inr ⟨.inr (.inl rfl), rfl⟩
      | digest => cases h; exact .inr ⟨.inr (.inr (.inl rfl)), rfl⟩
      | hexDigest => cases h; exact .inr ⟨.inr (.inr (.inr rfl)), rfl⟩

/-- The byte in front of the decoder whenever it answers a reserved opcode. -/
theorem decodeFrame_reserved_eq {bs rest : List Byte} {op : Byte} (h : decodeFrame bs = .reserved op rest) :
    bs = op :: rest ∧ decodeOpcode op = none := by
  cases bs with
  | nil => cases h
  | cons op' tail =>
    cases ho : decodeOpcode op' with
    | none => rw [decodeFrame_reserved ho] at h; cases h; exact ⟨rfl, ho⟩
    | some o =>
      obtain rfl := (decodeOpcode_eq_some op' o).mp ho
      cases o with
      | update =>
        change decodeUpdate tail = _ at h
        rcases decodeUpdate_cases tail with ⟨_, _, _, _, _, _, -, -, hd⟩ | ⟨_, _, _, _, _, -, -, hd⟩ | ⟨-, hd⟩ <;>
          (rw [hd] at h; cases h)
      | create => cases h
      | finalize => cases h
      | digest => cases h
      | hexDigest => cases h

/-- The bytes in front of the decoder whenever it waits: none, or an UPDATE frame cut short (R50). -/
theorem decodeFrame_incomplete {bs : List Byte} (h : decodeFrame bs = .incomplete) :
    bs = [] ∨ ∃ tail, bs = 0x02 :: tail ∧ decodeUpdate tail = .incomplete := by
  cases bs with
  | nil => exact .inl rfl
  | cons op tail =>
    cases ho : decodeOpcode op with
    | none => rw [decodeFrame_reserved ho] at h; cases h
    | some o =>
      obtain rfl := (decodeOpcode_eq_some op o).mp ho
      cases o with
      | update => exact .inr ⟨tail, rfl, h⟩
      | create => cases h
      | finalize => cases h
      | digest => cases h
      | hexDigest => cases h

/-! The encoder (R41) -/

/-- A payload fits the length field exactly when its command is well formed. -/
theorem update_wellFormed (data : List Byte) : (Instr.update data).WellFormed ↔ data.length < 2 ^ 32 := by
  rw [Instr.WellFormed, Instr.wellFormed, decide_eq_true_iff, Config.maxUpdateLen]
  omega

/-- The frame of an UPDATE, byte by byte. -/
theorem encode_update (data : List Byte) :
    let n := BitVec.ofNat 32 data.length
    encode (.update data) =
      0x02 :: n.extractLsb' 24 8 :: n.extractLsb' 16 8 :: n.extractLsb' 8 8 :: n.extractLsb' 0 8 :: data := rfl

end Sys2Proof
end

