-- ==== Sys2Proof/Laws/Assembler.lean ====
section
/-! SUPPORT. What the reader of the textual syntax finds: one lemma for each lexical element, and that the fuel of a line is
enough. -/

namespace Sys2Proof.Machine

/-! Characters -/

theorem isWordChar_iff (c : Char) : isWordChar c = true ↔
    isBlank c = false ∧ c ≠ ',' ∧ c ≠ '*' ∧ c ≠ ';' ∧ c ≠ quoteChar := by
  simp [isWordChar, and_assoc]

/-- A character whose upper case may stand in a mnemonic may itself. -/
theorem isWordChar_of_toUpper {c : Char} (h : isWordChar c.toUpper = true) : isWordChar c = true := by
  unfold Char.toUpper at h
  split at h
  · rename_i low
    have lo : 97 ≤ c.toNat := low.1
    have hi : c.toNat ≤ 122 := low.2
    have other : ∀ d : Char, d.toNat < 97 → c ≠ d := fun d hd e => by subst e; omega
    rw [isWordChar_iff]
    refine ⟨?_, other _ (by decide), other _ (by decide), other _ (by decide), other _ (by decide)⟩
    simp only [isBlank, Bool.or_eq_false_iff, beq_eq_false_iff_ne]
    omega
  · exact h

/-- The characters of a mnemonic, in any case. -/
theorem isWordChar_of_map {m w : List Char} (h : m.map Char.toUpper = w) (hw : w.all isWordChar = true) :
    ∀ c ∈ m, isWordChar c = true := by
  subst h
  exact fun c hc => isWordChar_of_toUpper (List.all_eq_true.mp hw _ (List.mem_map_of_mem hc))

/-! Fuel -/

/-- The text after a string literal is shorter than what was read. -/
theorem lexText_rest {n : Nat} {cs rest : List Char} {bs : List Byte} (h : lexText n cs = some (bs, rest)) :
    rest.length < cs.length := by
  fun_induction lexText n cs generalizing bs rest <;> simp_all <;> grind

/-- Any fuel beyond the length reads the same literal. -/
theorem lexText_fuel (n m : Nat) (cs : List Char) (hn : cs.length < n) (hm : cs.length < m) :
    lexText n cs = lexText m cs := by
  fun_induction lexText n cs generalizing m <;> (cases m; · omega) <;> simp_all [lexText] <;> grind

/-- What follows a word is shorter than the line. -/
theorem dropWhile_word_length {c : Char} (cs : List Char) (h : isWordChar c = true) :
    ((c :: cs).dropWhile isWordChar).length ≤ cs.length := by
  rw [List.dropWhile_cons, if_pos h]
  exact (List.dropWhile_sublist _).length_le

/-- Any fuel beyond the length reads the same line. -/
theorem lexLine_fuel (n m : Nat) (cs : List Char) (hn : cs.length < n) (hm : cs.length < m) :
    lexLine n cs = lexLine m cs := by
  fun_induction lexLine n cs generalizing m <;> (cases m; · omega) <;>
    simp_all [lexLine] <;> grind [lexText_fuel, → lexText_rest, dropWhile_word_length, isWordChar_iff]

/-! Lexical elements -/

/-- The elements of a line, with the fuel `assembleLine` gives it. -/
def tokens (line : List Char) : Option (List Token) := lexLine (line.length + 1) line

theorem tokens_eq (n : Nat) (line : List Char) (h : line.length < n) : lexLine n line = tokens line :=
  lexLine_fuel _ _ _ h (Nat.lt_succ_self _)

theorem tokens_blank (c : Char) (cs : List Char) (h : isBlank c = true) : tokens (c :: cs) = tokens cs := by
  rw [tokens, lexLine, if_pos h]
  exact tokens_eq _ _ (by simp)

theorem tokens_comment (cs : List Char) : tokens (';' :: cs) = some [] := by
  rw [tokens, lexLine, if_neg (by decide), if_pos rfl]

theorem tokens_comma (cs : List Char) : tokens (',' :: cs) = (tokens cs).map (Token.comma :: ·) := by
  rw [tokens, lexLine, if_neg (by decide), if_neg (by decide), if_pos rfl, tokens_eq _ _ (by simp)]

theorem tokens_star (cs : List Char) : tokens ('*' :: cs) = (tokens cs).map (Token.star :: ·) := by
  rw [tokens, lexLine, if_neg (by decide), if_neg (by decide), if_neg (by decide), if_pos rfl, tokens_eq _ _ (by simp)]

/-- A word ends where no word character follows. -/
theorem tokens_word (w rest : List Char) (hw : ∀ c ∈ w, isWordChar c = true) (ne : w ≠ [])
    (stop : ∀ c, rest.head? = some c → isWordChar c = false) :
    tokens (w ++ rest) = (tokens rest).map (Token.word w :: ·) := by
  obtain ⟨c, cs, rfl⟩ := List.exists_cons_of_ne_nil ne
  have hc := (isWordChar_iff c).mp (hw c (List.mem_cons_self ..))
  have taken : (c :: (cs ++ rest)).takeWhile isWordChar = c :: cs := by
    rw [← List.cons_append, List.takeWhile_append_of_pos hw]
    cases rest with
    | nil => simp
    | cons d ds => simp [stop d rfl]
  have dropped : (c :: (cs ++ rest)).dropWhile isWordChar = rest := by
    rw [← List.cons_append, List.dropWhile_append_of_pos hw]
    cases rest with
    | nil => simp
    | cons d ds => simp [stop d rfl]
  rw [tokens, List.cons_append, lexLine, if_neg (by simp [hc.1]), if_neg hc.2.2.2.1, if_neg hc.2.1, if_neg hc.2.2.1,
    if_neg hc.2.2.2.2, taken, dropped, tokens_eq _ _ (by simp)]

/-! Spelled operands (R48) -/

theorem hexChar_digit {n : Fin 16} {c : Char} (h : HexChar n c) : hexDigit c = some n.val ∧ isWordChar c = true := by
  have all : ∀ n : Fin 16,
      (("0123456789abcdef".toList[n.val]?).all fun c => hexDigit c = some n.val ∧ isWordChar c = true) = true ∧
      (("0123456789ABCDEF".toList[n.val]?).all fun c => hexDigit c = some n.val ∧ isWordChar c = true) = true := by
    decide
  rcases h with h | h
  · have := (all n).1; rw [h] at this; simpa using this
  · have := (all n).2; rw [h] at this; simpa using this

theorem hexByte_of_chars {a b : Fin 16} {ca cb : Char} (ha : HexChar a ca) (hb : HexChar b cb) :
    hexByte ca cb = some (BitVec.ofNat 8 (16 * a.val + b.val)) := by
  simp only [hexByte, (hexChar_digit ha).1, (hexChar_digit hb).1]

/-- A string literal is read to its closing quote. -/
theorem lexText_spelled {bs : List Byte} {cs : List Char} (h : TextSpelled bs cs) (rest : List Char) (n : Nat)
    (hn : cs.length + rest.length + 1 < n) : lexText n (cs ++ quoteChar :: rest) = some (bs, rest) := by
  induction h generalizing n with
  | nil =>
    obtain _ | n := n
    · omega
    · simp [lexText]
  | @cons b cs bs ds head _ ih =>
    obtain _ | n := n
    · omega
    · have read : lexText n (ds ++ quoteChar :: rest) = some (bs, rest) := by
        cases head <;> exact ih n (by simp at hn; omega)
      rw [List.append_assoc]
      generalize ds ++ quoteChar :: rest = more at read
      cases head with
      | plain c low high noQuote noBackslash => simp [lexText, noQuote, noBackslash, low, high, read, charByte]
      | backslash => simp [lexText, read, backslashChar, quoteChar, charByte]
      | quote => simp [lexText, read, backslashChar, quoteChar, charByte]
      | hex a b ca cb ha hb => simp [lexText, read, backslashChar, quoteChar, hexByte_of_chars ha hb]

theorem tokens_text {bs : List Byte} {cs : List Char} (h : TextSpelled bs cs) (rest : List Char) :
    tokens (quoteChar :: (cs ++ quoteChar :: rest)) = (tokens rest).map (Token.text bs :: ·) := by
  rw [tokens, lexLine, if_neg (by decide), if_neg (by decide), if_neg (by decide), if_neg (by decide), if_pos rfl,
    lexText_spelled h rest _ (by simp)]
  dsimp only
  rw [tokens_eq _ _ (by simp; omega)]

/-- The number of a row of decimal digits. -/
theorem decimal_digits (digits : List (Fin 10)) (ne : digits ≠ []) :
    decimal (digits.map fun d => Char.ofNat (0x30 + d.val)) = some (digits.foldl (fun n d => 10 * n + d.val) 0) := by
  have digit : ∀ d : Fin 10, (Char.ofNat (0x30 + d.val)).toNat = 0x30 + d.val := by decide
  have all : ∀ (ds : List (Fin 10)) (n : Nat),
      (ds.map fun d => Char.ofNat (0x30 + d.val)).foldl (fun acc c => acc.bind fun n =>
        if 0x30 ≤ c.toNat ∧ c.toNat ≤ 0x39 then some (10 * n + (c.toNat - 0x30)) else none) (some n) =
      some (ds.foldl (fun n d => 10 * n + d.val) n) := by
    intro ds
    induction ds with
    | nil => intro n; rfl
    | cons d ds ih =>
      intro n
      have := d.isLt
      rw [List.map_cons, List.foldl_cons, Option.bind_some, digit, if_pos (by omega), Nat.add_sub_cancel_left, ih,
        List.foldl_cons]
  obtain ⟨d, ds, rfl⟩ := List.exists_cons_of_ne_nil ne
  exact all (d :: ds) 0

/-- What may follow an operand or a mnemonic at the end of a line: nothing, or a comment. -/
theorem tokens_tail {tail : List Char} (h : tail = [] ∨ ∃ note, tail = ' ' :: ';' :: note) :
    tokens tail = some [] ∧ ∀ c, tail.head? = some c → isWordChar c = false := by
  rcases h with rfl | ⟨note, rfl⟩
  · exact ⟨rfl, by simp⟩
  · refine ⟨by rw [tokens_blank _ _ rfl, tokens_comment], ?_⟩
    intro c hc
    cases hc
    decide

theorem isWordChar_literal {a b : Fin 16} {ca cb : Char} (ha : HexChar a ca) (hb : HexChar b cb) :
    ∀ c ∈ ['0', 'x', ca, cb], isWordChar c = true := by
  simp [(hexChar_digit ha).2, (hexChar_digit hb).2]
  decide

/-- A list of byte literals is read as such. -/
theorem tokens_bytes {bs : List Byte} {cs : List Char} (h : BytesSpelled bs cs) (tail : List Char)
    (ht : tokens tail = some []) (stop : ∀ c, tail.head? = some c → isWordChar c = false) :
    ∃ w more, tokens (cs ++ tail) = some (.word w :: more) ∧ byteList (.word w :: more) = some bs ∧
      payload (.word w :: more) = some bs := by
  induction h with
  | one a b ca cb ha hb =>
    refine ⟨['0', 'x', ca, cb], [], ?_, ?_, ?_⟩
    · rw [tokens_word _ _ (isWordChar_literal ha hb) (by simp) stop, ht]; rfl
    all_goals simp [payload, byteList, byteLiteral, hexByte_of_chars ha hb]
  | @cons a b ca cb ha hb bs ds _ ih =>
    obtain ⟨w, more, hts, hbs, -⟩ := ih
    refine ⟨['0', 'x', ca, cb], .comma :: .word w :: more, ?_, ?_, ?_⟩
    · have := tokens_word ['0', 'x', ca, cb] (',' :: ' ' :: (ds ++ tail)) (isWordChar_literal ha hb) (by simp)
        (by intro c hc; cases hc; decide)
      rw [tokens_comma, tokens_blank _ _ rfl, hts] at this
      exact this
    all_goals simp [payload, byteList, byteLiteral, hexByte_of_chars ha hb, hbs]

/-- A payload operand is read as the payload it spells. -/
theorem payload_spelled {x : List Byte} {op : List Char} (h : OperandSpelled x op) {tail : List Char}
    (ht : tail = [] ∨ ∃ note, tail = ' ' :: ';' :: note) :
    ∃ t ts, tokens (op ++ tail) = some (t :: ts) ∧ payload (t :: ts) = some x := by
  obtain ⟨hnil, stop⟩ := tokens_tail ht
  cases h with
  | text h =>
    refine ⟨.text x, [], ?_, rfl⟩
    rw [List.cons_append, List.append_assoc, List.singleton_append, tokens_text h, hnil]
    rfl
  | @repeated bs cs h digits ne =>
    refine ⟨.text bs, [.star, .word (digits.map fun d => Char.ofNat (0x30 + d.val))], ?_, ?_⟩
    · have digit : ∀ d : Fin 10, isWordChar (Char.ofNat (0x30 + d.val)) = true := by decide
      have word := tokens_word (digits.map fun d => Char.ofNat (0x30 + d.val)) tail
        (by intro c hc; obtain ⟨d, -, rfl⟩ := List.mem_map.mp hc; exact digit d) (by simpa using ne) stop
      simp only [List.cons_append, List.append_assoc]
      rw [tokens_text h, tokens_blank _ _ rfl, tokens_star, tokens_blank _ _ rfl, word, hnil]
      rfl
    · simp only [payload, decimal_digits digits ne, Option.map_some]
  | bytes h =>
    obtain ⟨w, more, hts, -, hp⟩ := tokens_bytes h tail hnil stop
    exact ⟨_, _, hts, hp⟩

/-! Lines -/

/-- A line of one word (R48). -/
theorem assembleLine_word {line m : List Char} (h : tokens line = some [.word m]) :
    assembleLine line = plainLine (m.map Char.toUpper) := by
  rw [tokens] at h
  simp only [assembleLine, h]

/-- A line of a word and an operand (R48, R49). -/
theorem assembleLine_operand {line m : List Char} {t : Token} {ts : List Token} (h : tokens line = some (.word m :: t :: ts)) :
    assembleLine line = operandLine (m.map Char.toUpper) (t :: ts) := by
  rw [tokens] at h
  simp only [assembleLine, h]

/-- The elements of a line that begins with a mnemonic. -/
theorem tokens_mnemonic {m w : List Char} (hm : m.map Char.toUpper = w) (hw : w.all isWordChar = true) (ne : w ≠ [])
    (rest : List Char) (stop : ∀ c, rest.head? = some c → isWordChar c = false) :
    tokens (m ++ rest) = (tokens rest).map (Token.word m :: ·) :=
  tokens_word m rest (isWordChar_of_map hm hw) (by rintro rfl; exact ne hm.symm) stop

end Sys2Proof.Machine
end

