-- ==== Sys2Proof/Laws/State.lean ====
section
/-! SUPPORT. One lemma per field per update of the state, each true by rfl, so that no proof unfolds a record update. -/

namespace Sys2Proof.Machine

section Finish
variable (c : Context) (r : Response) (s : State)
@[simp] theorem finish_ctx : (finish c r s).engine.ctx = c := rfl
@[simp] theorem finish_respPort : (finish c r s).engine.respPort = s.engine.respPort ++ [r] := rfl
@[simp] theorem finish_pc : (finish c r s).engine.pc = s.engine.pc + 1 := rfl
@[simp] theorem finish_cmdPort : (finish c r s).engine.cmdPort = s.engine.cmdPort := rfl
@[simp] theorem finish_lower : (finish c r s).lower = s.lower := rfl
@[simp] theorem finish_upper : (finish c r s).upper = s.upper := rfl
@[simp] theorem finish_inputs : (finish c r s).inputs = s.inputs := rfl
end Finish

section Respond
variable (c : Context) (data : List Byte) (s : State)
@[simp] theorem respond_ctx : (respond c data s).engine.ctx = c := rfl
@[simp] theorem respond_respPort : (respond c data s).engine.respPort = s.engine.respPort ++ [.ok data] := rfl
@[simp] theorem respond_pc : (respond c data s).engine.pc = s.engine.pc + 1 := rfl
@[simp] theorem respond_cmdPort : (respond c data s).engine.cmdPort = s.engine.cmdPort := rfl
@[simp] theorem respond_lower : (respond c data s).lower = s.lower := rfl
@[simp] theorem respond_upper : (respond c data s).upper = s.upper := rfl
@[simp] theorem respond_inputs : (respond c data s).inputs = s.inputs := rfl
end Respond

section SetFault
variable (c : Context)
@[simp] theorem setFault_h : c.setFault.h = c.h := rfl
@[simp] theorem setFault_buf : c.setFault.buf = c.buf := rfl
@[simp] theorem setFault_len : c.setFault.len = c.len := rfl
@[simp] theorem setFault_bitLen : c.setFault.bitLen = c.bitLen := rfl
@[simp] theorem setFault_dig : c.setFault.dig = c.dig := rfl
@[simp] theorem setFault_phase : c.setFault.phase = c.phase := rfl
@[simp] theorem setFault_fault : c.setFault.fault = true := rfl
end SetFault

section RaiseError
variable (code : ErrorCode) (s : State)
@[simp] theorem raiseError_ctx : (raiseError code s).engine.ctx = s.engine.ctx.setFault := rfl
@[simp] theorem raiseError_respPort :
    (raiseError code s).engine.respPort = s.engine.respPort ++ [.error code] := rfl
@[simp] theorem raiseError_pc : (raiseError code s).engine.pc = s.engine.pc + 1 := rfl
@[simp] theorem raiseError_cmdPort : (raiseError code s).engine.cmdPort = s.engine.cmdPort := rfl
@[simp] theorem raiseError_lower : (raiseError code s).lower = s.lower := rfl
@[simp] theorem raiseError_upper : (raiseError code s).upper = s.upper := rfl
@[simp] theorem raiseError_inputs : (raiseError code s).inputs = s.inputs := rfl
end RaiseError

section WithPort
variable (bs : List Byte) (s : State)
@[simp] theorem withPort_cmdPort : (s.withPort bs).engine.cmdPort = bs := rfl
@[simp] theorem withPort_ctx : (s.withPort bs).engine.ctx = s.engine.ctx := rfl
@[simp] theorem withPort_respPort : (s.withPort bs).engine.respPort = s.engine.respPort := rfl
@[simp] theorem withPort_pc : (s.withPort bs).engine.pc = s.engine.pc := rfl
@[simp] theorem withPort_lower : (s.withPort bs).lower = s.lower := rfl
@[simp] theorem withPort_upper : (s.withPort bs).upper = s.upper := rfl
@[simp] theorem withPort_inputs : (s.withPort bs).inputs = s.inputs := rfl
@[simp] theorem withPort_withPort (as : List Byte) : (s.withPort as).withPort bs = s.withPort bs := rfl
@[simp] theorem withPort_self : s.withPort s.engine.cmdPort = s := rfl
end WithPort

section Receive
variable (bs : List Byte) (s : State)
@[simp] theorem receive_cmdPort : (s.receive bs).engine.cmdPort = s.engine.cmdPort ++ bs := rfl
@[simp] theorem receive_ctx : (s.receive bs).engine.ctx = s.engine.ctx := rfl
@[simp] theorem receive_respPort : (s.receive bs).engine.respPort = s.engine.respPort := rfl
@[simp] theorem receive_pc : (s.receive bs).engine.pc = s.engine.pc := rfl
@[simp] theorem receive_lower : (s.receive bs).lower = s.lower := rfl
@[simp] theorem receive_upper : (s.receive bs).upper = s.upper := rfl
@[simp] theorem receive_inputs : (s.receive bs).inputs = s.inputs := rfl
end Receive

section ResetEngine
variable (s : State)
@[simp] theorem resetEngine_engine : s.resetEngine.engine = Engine.reset := rfl
@[simp] theorem resetEngine_lower : s.resetEngine.lower = s.lower := rfl
@[simp] theorem resetEngine_upper : s.resetEngine.upper = s.upper := rfl
@[simp] theorem resetEngine_inputs : s.resetEngine.inputs = s.inputs := rfl
end ResetEngine

section CreateCtx
variable (c : Context)
@[simp] theorem createCtx_h : (createCtx c).h = iv := rfl
@[simp] theorem createCtx_buf : (createCtx c).buf = c.buf := rfl
@[simp] theorem createCtx_len : (createCtx c).len = 0 := rfl
@[simp] theorem createCtx_bitLen : (createCtx c).bitLen = 0 := rfl
@[simp] theorem createCtx_dig : (createCtx c).dig = none := rfl
@[simp] theorem createCtx_phase : (createCtx c).phase = .initialized := rfl
@[simp] theorem createCtx_fault : (createCtx c).fault = c.fault := rfl
end CreateCtx

section BlockDone
variable (c : Context)
@[simp] theorem blockDone_h : (blockDone c).h = transform c.h c.buf := rfl
@[simp] theorem blockDone_buf : (blockDone c).buf = c.buf := rfl
@[simp] theorem blockDone_len : (blockDone c).len = 0 := rfl
@[simp] theorem blockDone_bitLen : (blockDone c).bitLen = c.bitLen + 512 := rfl
@[simp] theorem blockDone_dig : (blockDone c).dig = c.dig := rfl
@[simp] theorem blockDone_phase : (blockDone c).phase = c.phase := rfl
@[simp] theorem blockDone_fault : (blockDone c).fault = c.fault := rfl
end BlockDone

section Close
variable (total : BitVec 64) (c : Context)
@[simp] theorem close_h : (close total c).h = transform c.h (writeCount c.buf total) := rfl
@[simp] theorem close_buf : (close total c).buf = writeCount c.buf total := rfl
@[simp] theorem close_len : (close total c).len = c.len := rfl
@[simp] theorem close_bitLen : (close total c).bitLen = c.bitLen := rfl
@[simp] theorem close_dig : (close total c).dig = some (digestOf (transform c.h (writeCount c.buf total))) := rfl
@[simp] theorem close_phase : (close total c).phase = .finalized := rfl
@[simp] theorem close_fault : (close total c).fault = c.fault := rfl
end Close

end Sys2Proof.Machine
end

