-- ==== Sys2Proof/Laws/Ops.lean ====
section
/-! SUPPORT. What each shared operation does, said once: the operations on the context, the selection and delivery of
inputs, and the one shape every command's next state has. -/

namespace Sys2Proof.Machine

/-! Bytes and blocks -/

theorem zeroFill_getElem (b : Block) (lo hi j : Nat) (hj : j < 64) :
    (zeroFill b lo hi)[j] = if lo ≤ j ∧ j < hi then 0 else b[j] := by
  simp [zeroFill]

theorem writeCount_getElem_low (b : Block) (total : BitVec 64) (j : Nat) (hj : j < 56) :
    (writeCount b total)[j] = b[j] := by
  simp [writeCount, hj]

theorem writeCount_getElem_high (b : Block) (total : BitVec 64) (k : Nat) (hk : k < 8) :
    (writeCount b total)[56 + k] = total.extractLsb' (56 - 8 * k) 8 := by
  simp [writeCount, bytesBE64]

theorem bytesBE32_getElem (w : Word) (j : Nat) (hj : j < 4) :
    (bytesBE32 w)[j] = w.extractLsb' (24 - 8 * j) 8 := by
  match j, hj with
  | 0, _ => rfl
  | 1, _ => rfl
  | 2, _ => rfl
  | 3, _ => rfl

/-- A step of a run of one more step. -/
theorem run_succ (M : Host.Core) (n : Nat) {u v : M.State} (h : M.step u = .next v) :
    M.run (n + 1) u = M.run n v := by
  simp only [Host.Core.run, h]

theorem hexOf_length (d : DigestBytes) : (hexOf d).length = 64 := by
  simp [hexOf, hexPair, List.length_flatMap]

/-! The context -/

/-- Absorb with room left in the buffer (R54). -/
theorem absorb_of_room (c : Context) (x : Byte) (room : c.len.val + 1 < 64) :
    absorb c x = { c with buf := c.buf.set c.len.val x c.len.isLt, len := ⟨c.len.val + 1, room⟩ } := by
  simp [absorb, room]

/-- Absorb of the 64th byte (R54, R55). -/
theorem absorb_of_full (c : Context) (x : Byte) (full : ¬ c.len.val + 1 < 64) :
    absorb c x = blockDone { c with buf := c.buf.set c.len.val x c.len.isLt } := by
  simp [absorb, full]

@[simp] theorem absorb_dig (c : Context) (x : Byte) : (absorb c x).dig = c.dig := by
  unfold absorb; split <;> rfl

@[simp] theorem absorb_phase (c : Context) (x : Byte) : (absorb c x).phase = c.phase := by
  unfold absorb; split <;> rfl

@[simp] theorem absorb_fault (c : Context) (x : Byte) : (absorb c x).fault = c.fault := by
  unfold absorb; split <;> rfl

/-- Absorb fills one more place of the buffer, round the block boundary (R54, R55). -/
theorem absorb_len (c : Context) (x : Byte) : (absorb c x).len.val = (c.len.val + 1) % 64 := by
  have := c.len.isLt
  by_cases room : c.len.val + 1 < 64
  · rw [absorb_of_room c x room]; exact (Nat.mod_eq_of_lt room).symm
  · rw [absorb_of_full c x room]
    have full : c.len.val + 1 = 64 := by omega
    simp [full]

/-- Absorb stores its byte at `buf[L]` and nowhere else (R54). -/
theorem absorb_buf (c : Context) (x : Byte) : (absorb c x).buf = c.buf.set c.len.val x c.len.isLt := by
  unfold absorb; split <;> rfl

@[simp] theorem foldl_absorb_dig (data : List Byte) (c : Context) : (data.foldl absorb c).dig = c.dig := by
  induction data generalizing c with
  | nil => rfl
  | cons x xs ih => simp [ih]

@[simp] theorem foldl_absorb_fault (data : List Byte) (c : Context) : (data.foldl absorb c).fault = c.fault := by
  induction data generalizing c with
  | nil => rfl
  | cons x xs ih => simp [ih]

/-- After a payload the fill is `(L0 + N) mod 64` (R56). -/
theorem foldl_absorb_len (data : List Byte) (c : Context) :
    (data.foldl absorb c).len.val = (c.len.val + data.length) % 64 := by
  induction data generalizing c with
  | nil => simp [Nat.mod_eq_of_lt c.len.isLt]
  | cons x xs ih =>
    rw [List.foldl_cons, ih, absorb_len, List.length_cons]
    omega

theorem absorb_withPhase (c : Context) (x : Byte) (p : Phase) :
    absorb { c with phase := p } x = { absorb c x with phase := p } := by
  by_cases room : c.len.val + 1 < 64
  · simp only [absorb, room, ↓reduceDIte]
  · simp only [absorb, room, ↓reduceDIte, blockDone]

/-- The phase is not read while bytes are absorbed (R53, R54). -/
theorem foldl_absorb_withPhase (data : List Byte) (c : Context) (p : Phase) :
    data.foldl absorb { c with phase := p } = { data.foldl absorb c with phase := p } := by
  induction data generalizing c with
  | nil => rfl
  | cons x xs ih => rw [List.foldl_cons, List.foldl_cons, absorb_withPhase, ih]

/-- The padding leaves `L`, `bitLen` and FAULT alone (R59, R60). -/
theorem pad_kept (c : Context) : (pad c).len = c.len ∧ (pad c).bitLen = c.bitLen ∧ (pad c).fault = c.fault := by
  unfold pad padOne padTwo
  split <;> simp only [and_self]

/-- What FINALIZE leaves alone in the context, and what it always sets (R61, D16). -/
theorem finalizeCtx_kept (c : Context) :
    (finalizeCtx c).len = c.len ∧ (finalizeCtx c).bitLen = c.bitLen ∧ (finalizeCtx c).fault = c.fault ∧
      (finalizeCtx c).phase = .finalized ∧ (finalizeCtx c).dig = some (digestOf (finalizeCtx c).h) := by
  obtain ⟨hlen, hbits, hfault⟩ := pad_kept (markEnd c)
  simp only [finalizeCtx, close_len, close_bitLen, close_fault, close_phase, close_dig, close_h, hlen, hbits, hfault]
  simp only [markEnd, and_self]

/-- What a read of the digest can answer (R18, R63, R91). -/
theorem readDigest_cases (c : Context) :
    (∃ d, c.phase = .finalized ∧ c.dig = some d ∧ readDigest c = .ok d) ∨
      ((c.phase ≠ .finalized ∨ c.dig = none) ∧ readDigest c = .error .notFinalized) := by
  rcases hp : c.phase <;> rcases hd : c.dig with _ | d <;> simp [readDigest, checkRead, hp, hd]

/-- The check of UPDATE and FINALIZE passes in every phase but Finalized (R53, R58). -/
theorem checkAppend_of_ne {p : Phase} (h : p ≠ .finalized) : checkAppend p = none := by
  cases p <;> first | rfl | exact absurd rfl h

/-- What the check of UPDATE and FINALIZE can answer (R53, R58, R91). -/
theorem checkAppend_cases (p : Phase) :
    (p ≠ .finalized ∧ checkAppend p = none) ∨ (p = .finalized ∧ checkAppend p = some .finalized) := by
  cases p <;> simp [checkAppend]

/-! Contexts and inputs -/

/-- Selecting a context changes none, and selects the one asked for. -/
theorem select_spec {k : Nat} {s t : State} (h : s.select k = some t) :
    t.engines = s.engines ∧ s.engines[k]? = some t.engine ∧ t.index = k ∧ t.inputs = s.inputs := by
  unfold State.select at h
  split at h
  · rename_i e he
    cases h
    obtain ⟨hk, rfl⟩ := List.getElem?_eq_some_iff.mp he
    refine ⟨?_, he, ?_, rfl⟩
    · show s.engines.take k ++ s.engines[k] :: s.engines.drop (k + 1) = s.engines
      rw [List.getElem_cons_drop, List.take_append_drop]
    · simp only [State.index, List.length_take]; omega
  · cases h

theorem select_eq_none {k : Nat} {s : State} : s.select k = none ↔ s.engines[k]? = none := by
  unfold State.select
  split <;> rename_i h <;> simp [h]

theorem select_of_getElem {k : Nat} {s : State} {e : Engine} (h : s.engines[k]? = some e) :
    ∃ t, s.select k = some t ∧ t.engine = e := by
  simp [State.select, h]

/-- The contexts of a state in which only the selected one may have changed. -/
theorem engines_of_frame {s t : State} (hl : t.lower = s.lower) (hu : t.upper = s.upper) :
    t.engines = s.engines.set s.index t.engine := by
  simp [State.engines, State.index, hl, hu]

/-- The selected context stands at its number. -/
theorem engines_index (s : State) : s.engines[s.index]? = some s.engine := by
  simp [State.engines, State.index]

/-! Commands -/

/-- The context a command leaves and the response it gives, as a function of the context it finds. -/
def commandResult (i : Instr) (c : Context) : Context × Response :=
  match i with
  | .create => (createCtx c, .ok [])
  | .update data =>
    match checkAppend c.phase with
    | some code => (c.setFault, .error code)
    | none => (updateCtx data c, .ok [])
  | .finalize =>
    match checkAppend c.phase with
    | some code => (c.setFault, .error code)
    | none => (finalizeCtx c, .ok [])
  | .digest =>
    match readDigest c with
    | .error code => (c.setFault, .error code)
    | .ok d => (c, .ok d.toList)
  | .hexDigest =>
    match readDigest c with
    | .error code => (c.setFault, .error code)
    | .ok d => (c, .ok (hexOf d))

/-- Everything a command can do to the machine: it ends with one context and one response, which depend on the selected
context alone, and it never stops (R37, R45, R90, R102). -/
theorem exec_eq (i : Instr) (s : State) :
    exec i s = .next (finish (commandResult i s.engine.ctx).1 (commandResult i s.engine.ctx).2 s) := by
  cases i with
  | create => rfl
  | update data =>
    simp only [exec, execUpdate, commandResult]
    cases checkAppend s.engine.ctx.phase <;> rfl
  | finalize =>
    simp only [exec, execFinalize, commandResult]
    cases checkAppend s.engine.ctx.phase <;> rfl
  | digest =>
    simp only [exec, execDigest, commandResult]
    cases readDigest s.engine.ctx <;> rfl
  | hexDigest =>
    simp only [exec, execHexDigest, commandResult]
    cases readDigest s.engine.ctx <;> rfl

/-- The next state of a command, when it is known to have one. -/
theorem exec_next {i : Instr} {s t : State} (h : exec i s = .next t) :
    t = finish (commandResult i s.engine.ctx).1 (commandResult i s.engine.ctx).2 s := by
  rw [exec_eq] at h
  injection h with h
  exact h.symm

/-- What a command can answer: an error, which leaves the context but for FAULT, or a success (R45, R92). -/
theorem commandResult_cases (i : Instr) (c : Context) :
    (∃ code, commandResult i c = (c.setFault, .error code)) ∨
      (∃ data, (commandResult i c).2 = .ok data ∧ (commandResult i c).1.fault = c.fault) := by
  cases i with
  | create => exact .inr ⟨_, rfl, rfl⟩
  | update data =>
    simp only [commandResult]
    cases checkAppend c.phase with
    | some code => exact .inl ⟨code, rfl⟩
    | none => exact .inr ⟨_, rfl, by simp [updateCtx]⟩
  | finalize =>
    simp only [commandResult]
    cases checkAppend c.phase with
    | some code => exact .inl ⟨code, rfl⟩
    | none => exact .inr ⟨_, rfl, (finalizeCtx_kept c).2.2.1⟩
  | digest =>
    simp only [commandResult]
    cases readDigest c with
    | error code => exact .inl ⟨code, rfl⟩
    | ok d => exact .inr ⟨_, rfl, rfl⟩
  | hexDigest =>
    simp only [commandResult]
    cases readDigest c with
    | error code => exact .inl ⟨code, rfl⟩
    | ok d => exact .inr ⟨_, rfl, rfl⟩

/-- Everything a step can do, by what stands on the selected port (R11, R50, R51). -/
theorem step_cases (s : State) :
    (∃ i rest, s.fetch = .command i rest ∧ step s = exec i (s.withPort rest)) ∨
      (∃ op rest, s.fetch = .reserved op rest ∧ step s = .next (raiseError .reserved (s.withPort rest))) ∨
      (s.fetch = .incomplete ∧ step s = await s) := by
  unfold step
  cases h : s.fetch with
  | command i rest => exact .inl ⟨i, rest, rfl, rfl⟩
  | reserved op rest => exact .inr (.inl ⟨op, rest, rfl, rfl⟩)
  | incomplete => exact .inr (.inr ⟨rfl, rfl⟩)

/-- Everything the wait for bytes can do when it answers a next state (R50, R102, R105). -/
theorem await_next {s t : State} (h : await s = .next t) :
    (s.inputs = [] ∧ t = s) ∨
      (∃ k bs later u, s.inputs = .bytes k bs :: later ∧ State.select k { s with inputs := later } = some u ∧
        t = u.receive bs) ∨
      (∃ k later u, s.inputs = .reset k :: later ∧ State.select k { s with inputs := later } = some u ∧
        t = u.resetEngine) := by
  unfold await at h
  cases hin : s.inputs with
  | nil => rw [hin] at h; cases h; exact .inl ⟨rfl, rfl⟩
  | cons inp later =>
    rw [hin] at h
    dsimp only at h
    cases inp with
    | bytes k bs =>
      simp only [deliver] at h
      split at h
      · rename_i u hu
        cases h
        exact .inr (.inl ⟨k, bs, later, u, rfl, hu, rfl⟩)
      · cases h
    | reset k =>
      simp only [deliver] at h
      split at h
      · rename_i u hu
        cases h
        exact .inr (.inr ⟨k, later, u, rfl, hu, rfl⟩)
      · cases h

/-- Everything a step can do when it answers a next state: a command, a rejected opcode, a wait, bytes that arrive, or a
reset (R50, R51, R104, R105). -/
theorem step_next {s t : State} (h : step s = .next t) :
    (∃ i rest, s.fetch = .command i rest ∧
      t = finish (commandResult i s.engine.ctx).1 (commandResult i s.engine.ctx).2 (s.withPort rest)) ∨
    (∃ op rest, s.fetch = .reserved op rest ∧ t = raiseError .reserved (s.withPort rest)) ∨
    (s.fetch = .incomplete ∧ s.inputs = [] ∧ t = s) ∨
    (∃ k bs later u, s.fetch = .incomplete ∧ s.inputs = .bytes k bs :: later ∧
      State.select k { s with inputs := later } = some u ∧ t = u.receive bs) ∨
    (∃ k later u, s.fetch = .incomplete ∧ s.inputs = .reset k :: later ∧
      State.select k { s with inputs := later } = some u ∧ t = u.resetEngine) := by
  rcases step_cases s with ⟨i, rest, hf, hs⟩ | ⟨op, rest, hf, hs⟩ | ⟨hf, hs⟩ <;> rw [hs] at h
  · exact .inl ⟨i, rest, hf, exec_next h⟩
  · cases h
    exact .inr (.inl ⟨op, rest, hf, rfl⟩)
  · rcases await_next h with ⟨hin, rfl⟩ | ⟨k, bs, later, u, hin, hu, rfl⟩ | ⟨k, later, u, hin, hu, rfl⟩
    · exact .inr (.inr (.inl ⟨hf, hin, rfl⟩))
    · exact .inr (.inr (.inr (.inl ⟨k, bs, later, u, hf, hin, hu, rfl⟩)))
    · exact .inr (.inr (.inr (.inr ⟨k, later, u, hf, hin, hu, rfl⟩)))

/-- A property of every context survives a step in which only the selected context changes. -/
theorem forall_engines {P : Engine → Prop} {s t : State} (hl : t.lower = s.lower) (hu : t.upper = s.upper)
    (hs : ∀ e ∈ s.engines, P e) (ht : P t.engine) : ∀ e ∈ t.engines, P e := by
  intro e he
  simp only [State.engines, hl, hu, List.mem_append, List.mem_cons] at he hs
  rcases he with he | rfl | he
  · exact hs e (.inl he)
  · exact ht
  · exact hs e (.inr (.inr he))

/-- The induction over a step, once: what a command, a rejected opcode, arriving bytes and a reset keep of one context,
a step keeps of every context. -/
theorem step_keeps {P : Engine → Prop}
    (hcmd : ∀ (e : Engine) (i : Instr) (bs : List Byte), P e →
      P { ctx := (commandResult i e.ctx).1, cmdPort := bs,
          respPort := e.respPort ++ [(commandResult i e.ctx).2], pc := e.pc + 1 })
    (herr : ∀ (e : Engine) (bs : List Byte), P e →
      P { ctx := e.ctx.setFault, cmdPort := bs, respPort := e.respPort ++ [.error .reserved], pc := e.pc + 1 })
    (hrec : ∀ (e : Engine) (bs : List Byte), P e → P { e with cmdPort := e.cmdPort ++ bs })
    (hreset : P Engine.reset) {s t : State} (hs : ∀ e ∈ s.engines, P e) (h : step s = .next t) :
    ∀ e ∈ t.engines, P e := by
  have selected : ∀ {u : State}, (∀ e ∈ u.engines, P e) → P u.engine := fun hu =>
    hu _ (by simp [State.engines])
  have hcur := selected hs
  rcases step_next h with ⟨i, rest, -, rfl⟩ | ⟨op, rest, -, rfl⟩ | ⟨-, -, rfl⟩ |
    ⟨k, bs, later, u, -, -, hu, rfl⟩ | ⟨k, later, u, -, -, hu, rfl⟩
  · exact forall_engines (s := s) rfl rfl hs (hcmd s.engine i rest hcur)
  · exact forall_engines (s := s) rfl rfl hs (herr s.engine rest hcur)
  · exact hs
  · have hall : ∀ e ∈ u.engines, P e := by rw [(select_spec hu).1]; exact hs
    exact forall_engines (s := u) rfl rfl hall (hrec u.engine bs (selected hall))
  · have hall : ∀ e ∈ u.engines, P e := by rw [(select_spec hu).1]; exact hs
    exact forall_engines (s := u) rfl rfl hall hreset

end Sys2Proof.Machine
end

