-- ==== Sys2Proof/Laws/PerInstr.lean ====
section
/-! SUPPORT. Statements for all commands, one lemma per constructor of Instr. -/

namespace Sys2Proof.Laws

/-- A command's frame begins with the opcode byte of its row, by which the decoder knows it (R42), and when the command is
well formed, the length found from the frame's first bytes is the frame's length (R41). -/
def FrameForm.Statement (i : Instr) : Prop :=
  (encode i).head? = some i.opcode.byte ∧ decodeOpcode i.opcode.byte = some i.opcode ∧
    (i.WellFormed → frameLength (encode i) = some (encode i).length)

theorem FrameForm.create : FrameForm.Statement .create := ⟨rfl, rfl, fun _ => rfl⟩

theorem FrameForm.update (data : List Byte) : FrameForm.Statement (.update data) := by
  refine ⟨rfl, decodeOpcode_byte _, fun hwf => ?_⟩
  have hlen := (update_wellFormed data).mp hwf
  have h := encode_update data
  dsimp only at h
  rw [h]
  simp only [frameLength, if_true, List.length_cons]
  rw [Machine.be32_bytesBE32, BitVec.toNat_ofNat, Nat.mod_eq_of_lt hlen]
  congr 1
  omega

theorem FrameForm.finalize : FrameForm.Statement .finalize := ⟨rfl, rfl, fun _ => rfl⟩

theorem FrameForm.digest : FrameForm.Statement .digest := ⟨rfl, rfl, fun _ => rfl⟩

theorem FrameForm.hexDigest : FrameForm.Statement .hexDigest := ⟨rfl, rfl, fun _ => rfl⟩

end Sys2Proof.Laws
end

