-- ==== Sys2Proof/Laws/Transform.lean ====
section
/-! SUPPORT. The message schedule grown word by word, and a message cut into blocks. -/

namespace Sys2Proof.Machine

/-! The message schedule (R80, R81) -/

theorem scheduleHead_length (blk : Block) : (scheduleHead blk).length = 16 := by
  simp [scheduleHead]

theorem scheduleExtend_length (n : Nat) (w : List Word) : (scheduleExtend n w).length = w.length + n := by
  induction n generalizing w with
  | zero => rfl
  | succ n ih => rw [scheduleExtend, ih, List.length_append, List.length_singleton]; omega

/-- Extending the schedule keeps the words it has. -/
theorem scheduleExtend_old (n : Nat) (w : List Word) (t : Nat) (ht : t < w.length) :
    (scheduleExtend n w)[t]? = w[t]? := by
  induction n generalizing w with
  | zero => rfl
  | succ n ih =>
    rw [scheduleExtend, ih _ (by rw [List.length_append]; omega), List.getElem?_append_left ht]

/-! Blocks of a message (R29, R55) -/

theorem blockAt_getElem (m : List Byte) (i j : Nat) (hj : j < 64) :
    (blockAt m i)[j] = m.getD (64 * i + j) 0 := by
  simp [blockAt]

/-- A complete block does not change when the message grows. -/
theorem blockAt_append (m d : List Byte) (i : Nat) (h : 64 * i + 64 ≤ m.length) :
    blockAt (m ++ d) i = blockAt m i := by
  apply Vector.ext
  intro j hj
  rw [blockAt_getElem _ _ _ hj, blockAt_getElem _ _ _ hj, List.getD_append _ _ _ _ (by omega)]

/-- The blocks of a longer message: those it had, and the ones completed since. -/
theorem fullBlocks_append (m d : List Byte) :
    fullBlocks (m ++ d) = fullBlocks m ++
      (List.range ((m.length + d.length) / 64 - m.length / 64)).map
        (fun i => blockAt (m ++ d) (m.length / 64 + i)) := by
  obtain ⟨n, hn⟩ := Nat.exists_eq_add_of_le
    (Nat.div_le_div_right (c := 64) (Nat.le_add_right m.length d.length))
  have old : (List.range (m.length / 64)).map (blockAt (m ++ d)) =
      (List.range (m.length / 64)).map (blockAt m) := by
    apply List.map_congr_left
    intro i hi
    rw [List.mem_range] at hi
    exact blockAt_append m d i (by omega)
  unfold fullBlocks
  rw [List.length_append, hn, Nat.add_sub_cancel_left, List.range_add, List.map_append, List.map_map, old]
  rfl

end Sys2Proof.Machine
end

