-- ==== Sys2Proof/Tests/Slice0.lean ====
section
/-! SUPPORT. Tests against values of spec/95_test_vectors.md, and for every statement with hypotheses a witness that meets them. -/

-- One theorem after another: elaborating them side by side asks for more threads than a compile of this file alone may have.
set_option Elab.async false

namespace Sys2Proof.Tests

open Sys2Proof.Machine

/-! Small states -/

/-- One context `c` with the bytes `bs` on its command port. -/
def small (c : Context) (bs : List Byte) : State :=
  { State.reset with engine := { Engine.reset with ctx := c, cmdPort := bs } }

/-- A context of fill `n` whose buffer holds `'a'` throughout. -/
def filled (n : Fin 64) : Context :=
  { Context.reset with buf := Vector.replicate 64 0x61, len := n, phase := .accumulating }

/-- The digest of "abc" (L1-2). -/
def abcDigest : DigestBytes :=
  #v[0xba, 0x78, 0x16, 0xbf, 0x8f, 0x01, 0xcf, 0xea, 0x41, 0x41, 0x40, 0xde, 0x5d, 0xae, 0x22, 0x23,
     0xb0, 0x03, 0x61, 0xa3, 0x96, 0x17, 0x7a, 0x9c, 0xb4, 0x10, 0xff, 0x61, 0xf2, 0x00, 0x15, 0xad]

/-- The chaining state after "abc" (§2.4). -/
def abcChain : Chain :=
  #v[0xba7816bf, 0x8f01cfea, 0x414140de, 0x5dae2223, 0xb00361a3, 0x96177a9c, 0xb410ff61, 0xf20015ad]

/-- The padded block of "abc" (§2.3). -/
def abcBlock : Block :=
  Vector.ofFn fun j : Fin 64 =>
    if j.val = 0 then 0x61 else if j.val = 1 then 0x62 else if j.val = 2 then 0x63
    else if j.val = 3 then 0x80 else if j.val = 63 then 0x18 else 0x00

/-- A context in Finalized that holds the digest of "abc". -/
def done : Context :=
  { Context.reset with h := abcChain, dig := some abcDigest, phase := .finalized }

/-- The context of an outcome. -/
def ctxOf : Host.Outcome State Fault Refusal → Option Context
  | .next t => some t.engine.ctx
  | .fault _ => none
  | .refused _ => none

/-- The bytes of the responses of an outcome. -/
def sent : Host.Outcome State Fault Refusal → List (List Byte)
  | .next t => t.engine.respPort.map Response.bytes
  | .fault _ => []
  | .refused _ => []

/-- The bytes left on the command port of an outcome. -/
def left : Host.Outcome State Fault Refusal → Option (List Byte)
  | .next t => some t.engine.cmdPort
  | .fault _ => none
  | .refused _ => none

/-! WellFormed (R43, R44) -/

theorem test_wellFormed_refuses_long_payload : (Instr.update (List.replicate (2 ^ 32) 0)).wellFormed = false := by
  rw [Bool.eq_false_iff]
  change ¬ (Instr.update _).WellFormed
  rw [update_wellFormed, List.length_replicate]
  exact Nat.lt_irrefl _

theorem test_wellFormed_admits_longest_payload : (Instr.update (List.replicate (2 ^ 32 - 1) 0)).WellFormed := by
  rw [update_wellFormed, List.length_replicate]
  decide

/-! Encodings written out (R41 to R46, §2.11) -/

theorem test_decode_create : decodeFrame [0b00000001] = .command .create [] := by decide
theorem test_decode_update_empty : decodeFrame [0b00000010, 0, 0, 0, 0] = .command (.update []) [] := by decide
theorem test_decode_update_abc :
    decodeFrame [0b00000010, 0, 0, 0, 3, 0x61, 0x62, 0x63, 0b00000011] =
      .command (.update [0x61, 0x62, 0x63]) [0b00000011] := by decide
theorem test_decode_update_length_order :
    decodeFrame ([0x02, 0, 0, 1, 0] ++ List.replicate 255 0x61) = .incomplete := by decide +kernel
theorem test_decode_finalize : decodeFrame [0b00000011] = .command .finalize [] := by decide
theorem test_decode_digest : decodeFrame [0b00000100] = .command .digest [] := by decide
theorem test_decode_hexDigest : decodeFrame [0b00000101] = .command .hexDigest [] := by decide
theorem test_decode_reserved :
    decodeFrame [0x00, 0x01] = .reserved 0x00 [0x01] ∧ decodeFrame [0x06] = .reserved 0x06 [] ∧
      decodeFrame [0x07] = .reserved 0x07 [] ∧ decodeFrame [0xff] = .reserved 0xff [] := by decide
theorem test_encode_update : encode (.update [0x61, 0x62, 0x63]) = [0x02, 0x00, 0x00, 0x00, 0x03, 0x61, 0x62, 0x63] := by
  decide
theorem test_table_rows_apart :
    opcodeTable.Pairwise (fun r q => r.pattern &&& (r.mask &&& q.mask) ≠ q.pattern &&& (r.mask &&& q.mask)) := by decide
theorem test_table_words :
    decodeTableWord 8 0x01 = some .create ∧ decodeTableWord 8 0x02 = some (.update []) ∧
      decodeTableWord 8 0x03 = some .finalize ∧ decodeTableWord 8 0x04 = some .digest ∧
      decodeTableWord 8 0x05 = some .hexDigest ∧ decodeTableWord 8 0x07 = none := by decide

/-! Word functions and the Transform (§2.1 to §2.5) -/

theorem test_rotations : rotr 0x12345678 2 = 0x048d159e ∧ rotr 0x12345678 25 = 0x1a2b3c09 ∧
    shr 0x12345678 3 = 0x02468acf ∧ shr 0x12345678 10 = 0x00048d15 := by decide
theorem test_mixing : bsig0 0x12345678 = 0x66146474 ∧ bsig1 0x12345678 = 0x3561abda ∧
    ssig0 0x12345678 = 0xe7fce6ee ∧ ssig1 0x12345678 = 0xa1f78649 := by decide
theorem test_choice : ch 0x510e527f 0x9b05688c 0x1f83d9ab = 0x1f85c98c ∧
    ch 0xf0f0f0f0 0xff00ff00 0x0ff00ff0 = 0xff00ff00 := by decide
theorem test_majority : maj 0x6a09e667 0xbb67ae85 0x3c6ef372 = 0x3a6fe667 ∧
    maj 0xf0f0f0f0 0xff00ff00 0x0ff00ff0 = 0xfff0fff0 := by decide
theorem test_sums_wrap : (0xffffffff : Word) + 1 = 0 ∧ (0xfffffffffffffe00 : BitVec 64) + 512 = 0 := by decide
theorem test_schedule : (schedule abcBlock)[0]? = some 0x61626380 ∧ (schedule abcBlock)[15]? = some 0x18 ∧
    (schedule abcBlock)[17]? = some 0x000f0000 ∧ (schedule abcBlock)[63]? = some 0x12b1edeb := by decide +kernel
theorem test_round_zero : roundT1 (Work.ofChain iv) 0x428a2f98 0x61626380 = 0x54da50e8 ∧
    roundT2 (Work.ofChain iv) = 0x08909ae5 ∧
    roundStep (Work.ofChain iv) (0x428a2f98, 0x61626380) = ⟨0x5d6aebcd, 0x6a09e667, 0xbb67ae85, 0x3c6ef372,
      0xfa2a4622, 0x510e527f, 0x9b05688c, 0x1f83d9ab⟩ := by decide +kernel
theorem test_transform_abc : transform iv abcBlock = abcChain := by decide +kernel
theorem test_transform_zeros : transform (Vector.replicate 8 0) (Vector.replicate 64 0) =
    #v[0x7ca51614, 0x425c3ba8, 0xce54dd2f, 0xc2020ae7, 0xb6e574d1, 0x98136d0f, 0xae7e26cc, 0xbf0be7a6] := by decide +kernel

/-! The commands (§2.6 to §2.10, §3) -/

theorem test_create_keeps_fault : ctxOf (exec .create (small { done with fault := true } [])) =
    some { Context.reset with fault := true } := by decide
theorem test_create_discards_buffer : (ctxOf (exec .create (small (filled 56) []))).map (fun c => (c.len, c.phase)) =
    some (0, .initialized) := by decide
theorem test_update_abc :
    (ctxOf (exec (.update [0x61, 0x62, 0x63]) State.reset)).map
        (fun c => (c.len, c.buf.toList.take 3, c.bitLen, c.h, c.phase)) =
      some (3, [0x61, 0x62, 0x63], 0, iv, .accumulating) := by decide
theorem test_update_crosses_block :
    (ctxOf (exec (.update [0x61, 0x61]) (small (filled 63) []))).map (fun c => (c.len, c.bitLen, c.h)) =
      some (1, 512, #v[0xdf5bb81c, 0xe81e0626, 0xfb45a894, 0x4fd40f31, 0xb25e6816, 0xd6d499c1, 0xab904929, 0x00635e66]) := by
  decide +kernel
theorem test_finalize_empty : (ctxOf (exec .finalize State.reset)).map (fun c => (c.h, c.len, c.phase)) =
    some (#v[0xe3b0c442, 0x98fc1c14, 0x9afbf4c8, 0x996fb924, 0x27ae41e4, 0x649b934c, 0xa495991b, 0x7852b855], 0,
      .finalized) := by decide +kernel
theorem test_finalize_two_blocks : (ctxOf (exec .finalize (small (filled 56) []))).map (fun c => (c.h, c.len, c.bitLen)) =
    some (#v[0xb35439a4, 0xac6f0948, 0xb6d6f9e3, 0xc6af0f5f, 0x590ce20f, 0x1bde7090, 0xef797068, 0x6ec6738a], 56, 0) := by
  decide +kernel
theorem test_digest_abc : sent (exec .digest (small done [])) = [0x00 :: abcDigest.toList] := by decide
theorem test_digest_too_early : sent (exec .digest State.reset) = [[0x03]] ∧
    ctxOf (exec .digest State.reset) = some { Context.reset with fault := true } := by decide
theorem test_hexDigest_abc : sent (exec .hexDigest (small done [])) = [
    [0x00, 0x62, 0x61, 0x37, 0x38, 0x31, 0x36, 0x62, 0x66, 0x38, 0x66, 0x30, 0x31, 0x63, 0x66, 0x65, 0x61,
     0x34, 0x31, 0x34, 0x31, 0x34, 0x30, 0x64, 0x65, 0x35, 0x64, 0x61, 0x65, 0x32, 0x32, 0x32, 0x33,
     0x62, 0x30, 0x30, 0x33, 0x36, 0x31, 0x61, 0x33, 0x39, 0x36, 0x31, 0x37, 0x37, 0x61, 0x39, 0x63,
     0x62, 0x34, 0x31, 0x30, 0x66, 0x66, 0x36, 0x31, 0x66, 0x32, 0x30, 0x30, 0x31, 0x35, 0x61, 0x64]] := by decide
theorem test_hexDigest_too_early : sent (exec .hexDigest (small (filled 3) [])) = [[0x03]] := by decide

/-- An UPDATE or FINALIZE after FINALIZE is rejected, and the digest stays (§2.9, P4). -/
theorem test_finalized_rejects : sent (exec (.update [0x64]) (small done [])) = [[0x02]] ∧
    sent (exec .finalize (small done [])) = [[0x02]] ∧
    ctxOf (exec (.update [0x64]) (small done [])) = some { done with fault := true } := by decide

/-- A reserved opcode takes one byte, whatever the phase (§2.9). -/
theorem test_reserved : sent (step (small done [0xff, 0x04])) = [[0x01]] ∧ left (step (small done [0xff, 0x04])) = some [0x04] ∧
    ctxOf (step (small done [0xff, 0x04])) = some { done with fault := true } := by decide

/-- The whole message view gives the digest of "abc" (L1-2). -/
theorem test_hashMessage_abc : hashMessage [0x61, 0x62, 0x63] = abcDigest := by decide +kernel

/-! Fetch, ports and inputs -/

theorem test_placed_words : left (step (State.reset.withFetchWord 8 0x01)) = some [] ∧
    sent (step (State.reset.withFetchWord 8 0x02)) = [[0x00]] ∧
    sent (step (State.reset.withFetchWord 8 0x04)) = [[0x03]] := by decide
theorem test_partial_frame_waits : step (small Context.reset [0x02, 0x00, 0x00, 0x00, 0x01]) =
    .next (small Context.reset [0x02, 0x00, 0x00, 0x00, 0x01]) := rfl

/-- Two contexts; the second has misused its port and holds a partial frame; the inputs are `ins`. -/
def pair (ins : List Input) : State where
  lower := []
  engine := Engine.reset
  upper := [{ Engine.reset with ctx := { filled 5 with fault := true }, cmdPort := [0x02, 0x00] }]
  inputs := ins

theorem test_bytes_join_port :
    left (step (pair [.bytes 1 [0x00, 0x00, 0x01]])) = some [0x02, 0x00, 0x00, 0x00, 0x01] := by decide
theorem test_reset_discards_partial_frame : step (pair [.reset 1]) =
    .next { lower := [Engine.reset], engine := Engine.reset, upper := [], inputs := [] } := rfl
theorem test_missing_context : step (pair [.reset 2]) = .fault (.noSuchContext 2) := rfl

/-! Textual syntax (R48, R49) -/

theorem test_assemble_text : assemble ["update \"abc\" ; three bytes".toList, "UPDATE 0x61, 0x62, 0x63".toList, ".byte 0x07".toList] =
    some [0x02, 0, 0, 0, 3, 0x61, 0x62, 0x63, 0x02, 0, 0, 0, 3, 0x61, 0x62, 0x63, 0x07] := by decide +kernel
/-- P5, its first message (§3): the frame stream of the pseudo-command. -/
theorem test_assemble_hash : assemble ["HASH \"abc\"".toList] =
    some [0x01, 0x02, 0x00, 0x00, 0x00, 0x03, 0x61, 0x62, 0x63, 0x03] := by decide +kernel
theorem test_assemble_hashHex : assembleLine "HASHHEX \"a\" * 3".toList =
    some [.command .create, .command (.update [0x61, 0x61, 0x61]), .command .finalize, .command .hexDigest] := by
  decide +kernel
theorem test_assemble_escapes : assembleLine "UPDATE \"\\\\\\\"\\x00\"".toList =
    some [.command (.update [0x5c, 0x22, 0x00])] := by decide +kernel
theorem test_assemble_rejects : assembleLine "UPDATE".toList = none ∧ assembleLine "CREATE \"a\"".toList = none ∧
    assembleLine "UPDATE 0x1".toList = none := by decide +kernel

/-! Witnesses: states and operands that meet the hypotheses of a statement -/

/-- A reset of the second context, which holds a partial frame and FAULT. -/
theorem witness_ResetEventRestoresContext :
    (pair [.reset 1]).fetch = .incomplete ∧ (pair [.reset 1]).inputs = .reset 1 :: [] ∧
      (pair [.reset 1]).engines[1]? =
        some { Engine.reset with ctx := { filled 5 with fault := true }, cmdPort := [0x02, 0x00] } := ⟨rfl, rfl, rfl⟩

/-- The least length, and one in which each byte of `N` counts. -/
theorem witness_UpdateOperandAssembly :
    ([] : List Byte).length = (0 : Byte).toNat * 2 ^ 24 + (0 : Byte).toNat * 2 ^ 16 + (0 : Byte).toNat * 2 ^ 8 + (0 : Byte).toNat ∧
    (List.replicate 0x01020304 (0 : Byte)).length =
      (1 : Byte).toNat * 2 ^ 24 + (2 : Byte).toNat * 2 ^ 16 + (3 : Byte).toNat * 2 ^ 8 + (4 : Byte).toNat :=
  ⟨by decide, by rw [List.length_replicate]; decide⟩

theorem witness_FrameLengthIsConsumed :
    decodeFrame [0x02, 0, 0, 0, 0, 0x04] = .command (.update []) [0x04] ∧ decodeFrame [0x04] = .command .digest [] ∧
      decodeFrame [0x00, 0x04] = .reserved 0x00 [0x04] ∧ decodeFrame [0x06] = .reserved 0x06 [] := by decide

theorem witness_DecodeEncodeRoundTrip : Instr.create.WellFormed ∧ Instr.finalize.WellFormed ∧ Instr.digest.WellFormed ∧
    Instr.hexDigest.WellFormed ∧ (Instr.update []).WellFormed ∧
    (Instr.update (List.replicate (2 ^ 32 - 1) 0)).WellFormed :=
  ⟨rfl, rfl, rfl, rfl, by decide, test_wellFormed_admits_longest_payload⟩

theorem witness_DecodedBytesAreTheFrame :
    decodeFrame [0x02, 0, 0, 0, 1, 0xff, 0x01] = .command (.update [0xff]) [0x01] := by decide

/-- Cut short: nothing, one byte missing, and, on the other side, nothing missing. -/
theorem witness_IncompleteIsCutShort : decodeFrame [] = .incomplete ∧ decodeFrame [0x02, 0, 0, 0, 1] = .incomplete ∧
    decodeFrame [0x02, 0, 0, 0, 0] ≠ .incomplete := by decide

theorem witness_StepRunsDecodedFrame :
    decodeFrame (small done [0x05, 0x01]).engine.cmdPort = .command .hexDigest [0x01] := by decide

theorem witness_StepsComposeSequentially : ∀ i ∈ [Instr.create, .update [0x61], .finalize, .digest], i.WellFormed := by
  decide

/-- The reserved opcodes at the ends of their ranges. -/
theorem witness_ReservedOpcodeRejected :
    (small done [0x00, 0x01]).engine.cmdPort = [0x00, 0x01] ∧ ((0x00 : Byte) = 0x00 ∨ 0x06 ≤ (0x00 : Byte).toNat) ∧
    (small done [0x06]).engine.cmdPort = [0x06] ∧ ((0x06 : Byte) = 0x00 ∨ 0x06 ≤ (0x06 : Byte).toNat) ∧
    (small done [0xff]).engine.cmdPort = [0xff] ∧ ((0xff : Byte) = 0x00 ∨ 0x06 ≤ (0xff : Byte).toNat) := by decide

/-- No input left, and bytes for a context that waits in the middle of a frame. -/
theorem witness_PartialFrameWaits :
    ((small done [0x02, 0x00]).fetch = .incomplete ∧ (small done [0x02, 0x00]).inputs = []) ∧
    ((pair [.bytes 1 [0x00]]).fetch = .incomplete ∧ (pair [.bytes 1 [0x00]]).inputs = .bytes 1 [0x00] :: [] ∧
      (pair [.bytes 1 [0x00]]).engines[1]? =
        some { Engine.reset with ctx := { filled 5 with fault := true }, cmdPort := [0x02, 0x00] }) :=
  ⟨⟨rfl, rfl⟩, rfl, rfl, rfl⟩

/-- Both sides of the statement occur: the last context there is, and the first there is not. -/
theorem witness_StepStopsOnlyAtMissingContext : (∃ t, step (pair [.reset 1]) = .next t) ∧
    (pair [.reset 2]).actor = some 2 ∧ (pair [.reset 2]).engines[2]? = none ∧ (pair [.reset 2]).fetch = .incomplete :=
  ⟨⟨_, rfl⟩, rfl, rfl, rfl⟩

theorem witness_PlacedWordIsExecuted :
    decodeTableWord 8 0x02 = some (.update []) ∧ decodeTableWord 8 0x05 = some .hexDigest := by decide

/-- The longest payload that has a frame, and the phases of both clauses. -/
theorem witness_UpdateRule : (List.replicate (2 ^ 32 - 1) (0 : Byte)).length ≤ 2 ^ 32 - 1 ∧
    State.reset.engine.ctx.phase ≠ .finalized ∧ (small (filled 63) []).engine.ctx.phase ≠ .finalized ∧
    (small done []).engine.ctx.phase = .finalized := by
  refine ⟨by rw [List.length_replicate], ?_⟩
  decide

/-- The last fill with room, and the fill without. -/
theorem witness_AbsorbRule : (filled 0).len.val + 1 < 64 ∧ (filled 62).len.val + 1 < 64 ∧ (filled 63).len.val + 1 = 64 := by
  decide

theorem witness_UpdateTransformsWholeBlocks : (small (filled 63) []).engine.ctx.phase ≠ .finalized := by decide

theorem witness_StreamingEquivalence : (small (filled 20) []).engine.ctx.phase ≠ .finalized := by decide

theorem witness_FinalizeRule : State.reset.engine.ctx.phase ≠ .finalized ∧
    (small (filled 55) []).engine.ctx.phase ≠ .finalized ∧ (small done []).engine.ctx.phase = .finalized := by decide

/-- The first and the last fill that take one block. -/
theorem witness_FinalizeOneBlock :
    (State.reset.engine.ctx.phase ≠ .finalized ∧ State.reset.engine.ctx.len.val ≤ 55) ∧
    ((small (filled 55) []).engine.ctx.phase ≠ .finalized ∧ (small (filled 55) []).engine.ctx.len.val ≤ 55) := by decide

/-- The first and the last fill that take two blocks. -/
theorem witness_FinalizeTwoBlocks :
    ((small (filled 56) []).engine.ctx.phase ≠ .finalized ∧ 56 ≤ (small (filled 56) []).engine.ctx.len.val) ∧
    ((small (filled 63) []).engine.ctx.phase ≠ .finalized ∧ 56 ≤ (small (filled 63) []).engine.ctx.len.val) := by decide

/-- A success, and a read in each earlier phase. -/
theorem witness_DigestRule :
    ((small done []).engine.ctx.phase = .finalized ∧ (small done []).engine.ctx.dig = some abcDigest) ∧
    State.reset.engine.ctx.phase ≠ .finalized ∧ (small (filled 3) []).engine.ctx.phase ≠ .finalized := by decide

/-- The same states for HEXDIGEST, and the digest bytes at both ends. -/
theorem witness_HexDigestRule :
    ((small done []).engine.ctx.phase = .finalized ∧ (small done []).engine.ctx.dig = some abcDigest) ∧
    State.reset.engine.ctx.phase ≠ .finalized ∧ (small (filled 3) []).engine.ctx.phase ≠ .finalized ∧
    (hexOf abcDigest).take 2 = [0x62, 0x61] ∧ (hexOf abcDigest).drop 62 = [0x61, 0x64] := by decide

/-- An empty digest register in each phase. -/
theorem witness_EmptyDigestIsNotRead : State.reset.engine.ctx.dig = none ∧ (small (filled 3) []).engine.ctx.dig = none ∧
    (small { done with dig := none } []).engine.ctx.dig = none := by decide

/-- Every phase meets the first clause's premise; a reserved byte that of the second. -/
theorem witness_PhaseMachine :
    (State.reset.engine.ctx.phase = .finalized → State.reset.engine.ctx.dig ≠ none) ∧
    ((small (filled 3) []).engine.ctx.phase = .finalized → (small (filled 3) []).engine.ctx.dig ≠ none) ∧
    ((small done []).engine.ctx.phase = .finalized ∧ (small done []).engine.ctx.dig ≠ none) ∧
    (small done [0x07]).engine.cmdPort = [0x07] ∧ ((0x07 : Byte) = 0x00 ∨ 0x06 ≤ (0x07 : Byte).toNat) := by decide

/-- A success of each command. -/
theorem witness_ResponseFrames :
    (commandResult .create Context.reset).2 = .ok [] ∧ (commandResult (.update [0x61]) Context.reset).2 = .ok [] ∧
    (commandResult .finalize (filled 3)).2 = .ok [] ∧ (commandResult .digest done).2 = .ok abcDigest.toList ∧
    (commandResult .hexDigest done).2 = .ok (hexOf abcDigest) := ⟨rfl, rfl, rfl, rfl, rfl⟩

/-- Every command on every state. -/
theorem witness_CommandFrame (i : Instr) (s : State) : ∃ t, exec i s = .next t := ⟨_, exec_eq i s⟩

/-- A command for each error a command can answer, and a reserved opcode. -/
theorem witness_ErrorFrame :
    (∃ t, exec (.update []) (small done []) = .next t ∧ t.engine.respPort = [.error .finalized]) ∧
    (∃ t, exec .finalize (small done []) = .next t ∧ t.engine.respPort = [.error .finalized]) ∧
    (∃ t, exec .digest State.reset = .next t ∧ t.engine.respPort = [.error .notFinalized]) ∧
    (∃ t, exec .hexDigest State.reset = .next t ∧ t.engine.respPort = [.error .notFinalized]) ∧
    (small done [0x07, 0x04]).fetch = .reserved 0x07 [0x04] :=
  ⟨⟨_, rfl, rfl⟩, ⟨_, rfl, rfl⟩, ⟨_, rfl, rfl⟩, ⟨_, rfl, rfl⟩, rfl⟩

theorem witness_CreateFrame : ∃ t, exec .create (small done []) = .next t := ⟨_, exec_eq _ _⟩

/-- A payload that leaves the block open with one place left, and one that fills it. -/
theorem witness_UpdateFrame : (small (filled 61) []).engine.ctx.phase ≠ .finalized ∧
    (∃ t, exec (.update [0x62, 0x63]) (small (filled 61) []) = .next t) ∧
    (filled 61).len.val + [(0x62 : Byte), 0x63].length < 64 ∧ ¬ (filled 62).len.val + [(0x62 : Byte), 0x63].length < 64 ∧
    (∀ k, k < [(0x62 : Byte), 0x63].length → ((filled 61).len.val + k) % 64 ≠ 63) :=
  ⟨by decide, ⟨_, exec_eq _ _⟩, by decide, by decide, by decide⟩

theorem witness_FinalizeFrame : (small (filled 55) []).engine.ctx.phase ≠ .finalized ∧
    (small (filled 56) []).engine.ctx.phase ≠ .finalized ∧
    (∃ t, exec .finalize (small (filled 55) []) = .next t) ∧ (∃ t, exec .finalize (small (filled 56) []) = .next t) :=
  ⟨by decide, by decide, ⟨_, exec_eq _ _⟩, ⟨_, exec_eq _ _⟩⟩

/-- Both reads, succeeding and rejected. -/
theorem witness_ReadFrame :
    (∃ t, exec .digest (small done []) = .next t ∧ t.engine.respPort = [.ok abcDigest.toList]) ∧
    (∃ t, exec .hexDigest (small done []) = .next t ∧ t.engine.respPort = [.ok (hexOf abcDigest)]) ∧
    (∃ t, exec .digest State.reset = .next t) ∧ (∃ t, exec .hexDigest State.reset = .next t) :=
  ⟨⟨_, rfl, rfl⟩, ⟨_, rfl, rfl⟩, ⟨_, exec_eq _ _⟩, ⟨_, exec_eq _ _⟩⟩

/-- The least and the greatest amount; a shift that keeps a bit and one that fills. -/
theorem witness_RotateAndShiftBits : (0 < 1 ∧ 1 < 32 ∧ 31 < 32) ∧ (0 < 31 ∧ 31 < 32 ∧ 0 < 32) ∧ 0 + 31 < 32 ∧ ¬ 31 + 1 < 32 := by
  decide

theorem witness_MixingFunctionBits : 0 < 32 ∧ 31 < 32 ∧ 28 + 3 < 32 ∧ ¬ 29 + 3 < 32 := by decide

/-- The first byte of the digest of a chaining state is the top byte of word 0, the last the low byte of word 7 (R31). -/
theorem witness_WordsAreBigEndian : (digestOf abcChain)[0] = 0xba ∧ (digestOf abcChain)[4 * 7 + 3] = 0xad ∧
    be32 0x61 0x62 0x63 0x80 = 0x61626380 ∧ (small (filled 3) []).engine.ctx.phase ≠ .finalized := by decide

/-- The ends of both ranges of `t`. -/
theorem witness_ScheduleWords : 0 < 16 ∧ 15 < 16 ∧ (16 ≤ 16 ∧ 16 < 64) ∧ (16 ≤ 63 ∧ 63 < 64) := by decide

/-- The first and the last round. -/
theorem witness_TransformRounds : 0 < 64 ∧ 63 < 64 ∧ roundConstants[0]? = some 0x428a2f98 ∧
    roundConstants[63]? = some 0xc67178f2 := by decide

/-- FAULT of a context to which bytes come, and of one that is executing a command. -/
theorem witness_FaultIsSticky :
    ((∃ t, step (pair [.bytes 1 [0x00]]) = .next t) ∧
      (pair [.bytes 1 [0x00]]).engines[1]? =
        some { Engine.reset with ctx := { filled 5 with fault := true }, cmdPort := [0x02, 0x00] } ∧
      ∀ j, ¬ ((pair [.bytes 1 [0x00]]).fetch = .incomplete ∧ (pair [.bytes 1 [0x00]]).inputs.head? = some (.reset j))) ∧
    ((∃ t, step (small { done with fault := true } [0x01]) = .next t) ∧
      (small { done with fault := true } [0x01]).engines[0]? =
        some { Engine.reset with ctx := { done with fault := true }, cmdPort := [0x01] } ∧
      ∀ j, ¬ ((small { done with fault := true } [0x01]).fetch = .incomplete ∧
        (small { done with fault := true } [0x01]).inputs.head? = some (.reset j))) :=
  ⟨⟨⟨_, rfl⟩, rfl, fun _ h => by cases h.2⟩, ⟨⟨_, rfl⟩, rfl, fun _ h => by cases h.2⟩⟩

/-- The context after reset holds the empty message. -/
theorem reset_holds : Context.reset.Holds [] :=
  ⟨rfl, ⟨rfl, rfl, fun _ _ h => absurd h (Nat.not_lt_zero _), rfl⟩, rfl⟩

/-- A context in each phase holds a message: none, "abc" in part, and "abc" hashed. -/
theorem witness_CommandsBuildTheMessage :
    Context.reset.Holds [] ∧
    (∃ c : Context, c.phase = .accumulating ∧ c.Holds [0x61, 0x62, 0x63]) ∧ done.Holds [0x61, 0x62, 0x63] := by
  refine ⟨reset_holds, ⟨{ Context.reset with buf := abcBlock, len := 3, phase := .accumulating }, rfl, ?_⟩, ?_⟩
  · refine ⟨⟨rfl, rfl, ?_, rfl⟩, rfl⟩
    have h : ∀ j : Fin 64, j.val < 3 → abcBlock[j.val] = [(0x61 : Byte), 0x62, 0x63].getD j.val 0 := by decide
    intro j hj hl
    simpa using h ⟨j, hj⟩ hl
  · exact ⟨by decide +kernel, by decide +kernel⟩

/-- A split into chunks, one of them empty; a longest chunk; and a context in each of two phases. -/
theorem witness_LifecycleHashesTheChunks :
    (∀ d ∈ [[], [(0x61 : Byte)], [0x62, 0x63]], d.length ≤ 2 ^ 32 - 1) ∧
    (∀ d ∈ [List.replicate (2 ^ 32 - 1) (0 : Byte)], d.length ≤ 2 ^ 32 - 1) ∧
    State.reset.Safe ∧ (small done []).Safe := by
  refine ⟨by decide, ?_, by decide, by decide⟩
  intro d hd
  rw [List.mem_singleton.mp hd, List.length_replicate]

/-- Reset, with a command on the port. -/
theorem witness_MessageKeptByStep : (small Context.reset [0x01]).HoldsMessages ∧
    ∃ t, step (small Context.reset [0x01]) = .next t := by
  refine ⟨?_, ⟨_, rfl⟩⟩
  intro e he
  simp only [small, State.reset, State.resetWith, State.engines, List.replicate, List.nil_append,
    List.mem_singleton] at he
  subst he
  exact ⟨[], reset_holds⟩

/-- A context that answered a success and an error, with a command on its port. -/
theorem witness_AccountKeptByStep :
    let s : State := { State.reset with engine :=
      { ctx := { done with fault := true }, cmdPort := [0x04], respPort := [.ok [], .error .reserved], pc := 2 } }
    s.Accounted ∧ ∃ t, step s = .next t := by
  refine ⟨?_, ⟨_, rfl⟩⟩
  simp [State.Accounted, State.engines, State.reset, State.resetWith, Engine.Accounted, Response.isError]

theorem witness_OthersKeepWaiting : (pair [.bytes 1 [0x00]]).OthersWait ∧ ∃ t, step (pair [.bytes 1 [0x00]]) = .next t := by
  refine ⟨?_, ⟨_, rfl⟩⟩
  simp [State.OthersWait, pair]
  decide

/-- A command of context 0 while context 1 stands by, and bytes for context 1. -/
theorem witness_StepTouchesOneContext :
    (∃ t, step (State.withPort [0x01] (pair [])) = .next t) ∧ (State.withPort [0x01] (pair [])).actor ≠ some 1 ∧
    (∃ t, step (pair [.bytes 1 [0x00]]) = .next t) ∧ (pair [.bytes 1 [0x00]]).actor ≠ some 0 :=
  ⟨⟨_, rfl⟩, by decide, ⟨_, rfl⟩, by decide⟩

/-- The same context beside none and beside another. -/
theorem witness_ContextsShareNothing : (State.resetWith 0).engine = (pair [.reset 1]).engine ∧
    (State.resetWith 0).engines.length ≠ (pair [.reset 1]).engines.length ∧
    (∃ t, exec .finalize (State.resetWith 0) = .next t) ∧ (∃ t, exec .finalize (pair [.reset 1]) = .next t) :=
  ⟨rfl, by decide, ⟨_, exec_eq _ _⟩, ⟨_, exec_eq _ _⟩⟩

/-- Two states that differ, only in buffer bytes beyond `L`. -/
theorem witness_StaleBytesAreInvisible :
    (small { filled 0 with buf := Vector.replicate 64 0 } []).SameButStale (small (filled 0) []) ∧
    small { filled 0 with buf := Vector.replicate 64 0 } [] ≠ small (filled 0) [] ∧
    (∃ t, exec .finalize (small { filled 0 with buf := Vector.replicate 64 0 } []) = .next t) :=
  ⟨⟨⟨rfl, rfl, rfl, rfl, rfl, rfl, fun _ _ h => absurd h (Nat.not_lt_zero _)⟩, rfl⟩, by decide, ⟨_, exec_eq _ _⟩⟩

/-- "abc" written as a literal, with an escape for its last byte. -/
theorem abc_spelled : TextSpelled [0x61, 0x62, 0x63] ['a', 'b', backslashChar, 'x', '6', '3'] :=
  .cons (.plain 'a' (by decide) (by decide) (by decide) (by decide))
    (.cons (.plain 'b' (by decide) (by decide) (by decide) (by decide))
      (.cons (.hex 6 3 '6' '3' (.inl rfl) (.inl rfl)) .nil))

/-- Each form of an operand, both other escapes, the ends of the printable range, no repetition at all, and a byte literal in
either case; a mnemonic in mixed case; and both ends of a line. -/
theorem witness_AssembledLinesGiveCommands :
    OperandSpelled [0x61, 0x62, 0x63] (quoteChar :: (['a', 'b', backslashChar, 'x', '6', '3'] ++ [quoteChar])) ∧
    OperandSpelled [] [quoteChar, 'a', quoteChar, ' ', '*', ' ', '0'] ∧
    OperandSpelled [0xfa, 0x0b] ['0', 'x', 'f', 'A', ',', ' ', '0', 'x', '0', 'b'] ∧
    TextSpelled [0x5c, 0x22] [backslashChar, backslashChar, backslashChar, quoteChar] ∧
    ByteSpelled 0x20 [' '] ∧ ByteSpelled 0x7e ['~'] ∧
    ("uPdAtE".toList.map Char.toUpper = "UPDATE".toList ∧ ".byte".toList.map Char.toUpper = ".BYTE".toList ∧
      "create".toList.map Char.toUpper = "CREATE".toList) ∧
    (([] : List Char) = [] ∨ ∃ note, ([] : List Char) = ' ' :: ';' :: note) ∧
    (" ; note".toList = [] ∨ ∃ note, " ; note".toList = ' ' :: ';' :: note) :=
  ⟨.text abc_spelled,
    .repeated (.cons (.plain 'a' (by decide) (by decide) (by decide) (by decide)) .nil) [0] (by decide),
    .bytes (.cons 15 10 'f' 'A' (.inl rfl) (.inr rfl) (.one 0 11 '0' 'b' (.inl rfl) (.inl rfl))),
    .cons .backslash (.cons .quote .nil),
    .plain ' ' (by decide) (by decide) (by decide) (by decide), .plain '~' (by decide) (by decide) (by decide) (by decide),
    by decide, .inl rfl, .inr ⟨_, rfl⟩⟩

/-- The pseudo-commands in either case. -/
theorem witness_PseudoCommandsExpand : "HASH".toList.map Char.toUpper = "HASH".toList ∧
    "hashhex".toList.map Char.toUpper = "HASHHEX".toList := by decide

/-- A line of several commands, and a line of one raw byte. -/
theorem witness_AssembledCommandsSpellFrames :
    assembleLine "HASH \"a\"".toList = some [.command .create, .command (.update [0x61]), .command .finalize] ∧
    AsmItem.command (.update [0x61]) ∈ [AsmItem.command .create, .command (.update [0x61]), .command .finalize] ∧
    assembleLine ".byte 0x00".toList = some [.rawByte 0x00] := by decide +kernel

end Sys2Proof.Tests
end

section
/-! The platform after reset (10_state.md R26, R102): each of its contexts is `Engine.reset`, so what holds of that one
context holds of all. -/

namespace Sys2Proof.Machine

/-- The contexts after reset, in the order of their numbers: copies of one. -/
theorem engines_resetWith (extra : Nat) :
    (State.resetWith extra).engines = List.replicate (extra + 1) Engine.reset := rfl

theorem length_engines_resetWith (extra : Nat) : (State.resetWith extra).engines.length = extra + 1 := by
  rw [engines_resetWith, List.length_replicate]

theorem eq_reset_of_mem_engines_resetWith {extra : Nat} {e : Engine} (he : e ∈ (State.resetWith extra).engines) :
    e = Engine.reset := by
  rw [engines_resetWith] at he
  exact List.eq_of_mem_replicate he

/-- Settles O1: every context is `Engine.reset`, whose six fields are compared with R26's table one by one. -/
theorem resetLeavesSpecValues : Obligations.ResetLeavesSpecValues := by
  intro extra
  refine ⟨length_engines_resetWith extra, fun e he => ?_⟩
  obtain rfl := eq_reset_of_mem_engines_resetWith he
  exact ⟨rfl, rfl, rfl, rfl, rfl, rfl⟩

end Sys2Proof.Machine
end

section
/-! Big-endian words and the digest FINALIZE latches (20_memory.md R29, R31; 40_commands.md R58, R61). -/

namespace Sys2Proof.Machine

/-- FINALIZE where it is accepted: the context is `finalizeCtx` and the response carries no data (R58). -/
theorem exec_finalize_of_ne {s : State} (hp : s.engine.ctx.phase ≠ .finalized) :
    exec .finalize s = .next (respond (finalizeCtx s.engine.ctx) [] s) := by
  rw [exec_eq]
  simp only [commandResult, checkAppend_of_ne hp, respond]

/-- The digest holds the words of the chaining state one after another, four bytes each (R31). -/
theorem digestOf_getElem (h : Chain) {i j : Nat} (hi : i < 8) (hj : j < 4) :
    (digestOf h)[4 * i + j] = (bytesBE32 h[i])[j] := by
  have hword : (4 * i + j) / 4 = i := by omega
  have hbyte : (4 * i + j) % 4 = j := by omega
  simp only [digestOf, Vector.getElem_ofFn, hword, hbyte]

/-- Settles O42: the digest latched is `digestOf` of the final chaining state (`finalizeCtx_kept`), read byte by byte. -/
theorem wordsAreBigEndian : Obligations.WordsAreBigEndian := by
  refine ⟨fun b0 b1 b2 b3 => ?_, fun s hp => ?_⟩
  · obtain ⟨htop, -, -, hlow⟩ := be32_extract b0 b1 b2 b3
    exact ⟨be32_toNat b0 b1 b2 b3, htop, hlow⟩
  · obtain ⟨-, -, -, -, hdig⟩ := finalizeCtx_kept s.engine.ctx
    refine ⟨_, _, exec_finalize_of_ne hp, hdig, fun i j hi hj => ?_⟩
    rw [digestOf_getElem _ hi hj, bytesBE32_getElem _ j hj, respond_ctx]

end Sys2Proof.Machine
end

section
/-! The reserved opcodes (30_encoding.md R46). -/

namespace Sys2Proof.Machine

/-- A reserved opcode byte at the front of the port: it alone is taken off, and the frame is rejected (R46). -/
theorem step_reserved {s : State} {op : Byte} {rest : List Byte} (hport : s.engine.cmdPort = op :: rest)
    (hop : op = 0x00 ∨ 0x06 ≤ op.toNat) : step s = .next (raiseError .reserved (s.withPort rest)) := by
  have hfetch : s.fetch = .reserved op rest := by
    rw [State.fetch, hport, decodeFrame_reserved ((decodeOpcode_eq_none op).mpr hop)]
  simp only [step, hfetch, rejectReserved]

/-- Settles O13: the next state is the one of `step_reserved`, whose record updates are written out in the statement. -/
theorem reservedOpcodeRejected : Obligations.ReservedOpcodeRejected :=
  fun _ _ _ hport hop => ⟨step_reserved hport hop, rfl⟩

end Sys2Proof.Machine
end

section
/-! The pseudo-commands (30_encoding.md R49): UPDATE, HASH and HASHHEX read their operand in the same way, as
`operandPayload`, and differ only in the commands they make of it. -/

namespace Sys2Proof.Machine

/-- The payload an operand text spells for a line that fits a frame; none where the text is no operand, the empty
text included. -/
def operandPayload (x : List Char) : Option (List Byte) := (tokens x).bind framePayload

/-- A line that cannot be cut into its elements (R48). -/
theorem assembleLine_none {line : List Char} (h : tokens line = none) : assembleLine line = none := by
  rw [tokens] at h
  simp only [assembleLine, h]

/-- A line of a mnemonic and an operand text, where the mnemonic asks for a payload: the line is admitted exactly when
the text spells one. -/
theorem assembleLine_payload {m w : List Char} {items : List Byte → List AsmItem} (hm : m.map Char.toUpper = w)
    (hw : w.all isWordChar = true) (ne : w ≠ []) (plain : plainLine w = none)
    (operand : ∀ ts, operandLine w ts = (framePayload ts).map items) (x : List Char) :
    assembleLine (m ++ ' ' :: x) = (operandPayload x).map items := by
  have lexed : tokens (m ++ ' ' :: x) = (tokens x).map (Token.word m :: ·) := by
    rw [tokens_mnemonic hm hw ne _ (by rintro c ⟨⟩; rfl), tokens_blank _ _ rfl]
  rw [operandPayload]
  cases hx : tokens x with
  | none =>
    rw [hx, Option.map_none] at lexed
    rw [assembleLine_none lexed]
    rfl
  | some ts =>
    rw [hx, Option.map_some] at lexed
    cases ts with
    | nil => rw [assembleLine_word lexed, hm, plain]; rfl
    | cons t ts => rw [assembleLine_operand lexed, hm, operand, Option.bind_some]

theorem assembleLine_update (x : List Char) :
    assembleLine ("UPDATE".toList ++ ' ' :: x) = (operandPayload x).map fun d => [.command (.update d)] :=
  assembleLine_payload (w := "UPDATE".toList) (by decide) (by decide) (by decide) rfl (fun _ => rfl) x

theorem assembleLine_hash {m : List Char} (hm : m.map Char.toUpper = "HASH".toList) (x : List Char) :
    assembleLine (m ++ ' ' :: x) = (operandPayload x).map fun d => (hashCommands d).map .command :=
  assembleLine_payload hm (by decide) (by decide) rfl (fun _ => rfl) x

theorem assembleLine_hashHex {m : List Char} (hm : m.map Char.toUpper = "HASHHEX".toList) (x : List Char) :
    assembleLine (m ++ ' ' :: x) = (operandPayload x).map fun d => (hashHexCommands d).map .command :=
  assembleLine_payload hm (by decide) (by decide) rfl (fun _ => rfl) x

theorem assembleLine_create : assembleLine "CREATE".toList = some [.command .create] := rfl

theorem assembleLine_finalize : assembleLine "FINALIZE".toList = some [.command .finalize] := rfl

theorem assembleLine_hexDigest : assembleLine "HEXDIGEST".toList = some [.command .hexDigest] := rfl

/-- Settles O58: where `x` spells no payload, neither side is admitted, and where it spells one, both sides are the
frames of the same commands. -/
theorem pseudoCommandsExpand : Obligations.PseudoCommandsExpand := by
  refine fun m x => ⟨fun hm => ?_, fun hm => ?_⟩
  · simp only [assemble, assembleLine_hash hm, assembleLine_update, assembleLine_create, assembleLine_finalize]
    cases operandPayload x with
    | none => rfl
    | some d => simp [hashCommands]
  · simp only [assemble, assembleLine_hashHex hm, assembleLine_update, assembleLine_create, assembleLine_finalize,
      assembleLine_hexDigest]
    cases operandPayload x with
    | none => rfl
    | some d => simp [hashHexCommands, hashCommands]

end Sys2Proof.Machine
end

section
/-! The commands as the context and the response they end with (40_commands.md R52 to R55, R58, R63, R64): which of its
cases a command takes, by the phase or by what the digest read answers. -/

namespace Sys2Proof.Machine

theorem exec_create (s : State) : exec .create s = .next (respond (createCtx s.engine.ctx) [] s) := rfl

/-- UPDATE where it is accepted (R53). -/
theorem exec_update_of_ne (data : List Byte) {s : State} (hp : s.engine.ctx.phase ≠ .finalized) :
    exec (.update data) s = .next (respond (updateCtx data s.engine.ctx) [] s) := by
  simp only [exec, execUpdate, checkAppend_of_ne hp]

/-- UPDATE where it is rejected (R53, R91). -/
theorem exec_update_of_finalized (data : List Byte) {s : State} (hp : s.engine.ctx.phase = .finalized) :
    exec (.update data) s = .next (raiseError .finalized s) := by
  simp only [exec, execUpdate, hp, checkAppend]

/-- FINALIZE where it is rejected (R58, R91). -/
theorem exec_finalize_of_finalized {s : State} (hp : s.engine.ctx.phase = .finalized) :
    exec .finalize s = .next (raiseError .finalized s) := by
  simp only [exec, execFinalize, hp, checkAppend]

theorem readDigest_of_some {c : Context} {d : DigestBytes} (hp : c.phase = .finalized) (hd : c.dig = some d) :
    readDigest c = .ok d := by
  simp only [readDigest, hp, hd, checkRead]

theorem readDigest_of_ne {c : Context} (hp : c.phase ≠ .finalized) : readDigest c = .error .notFinalized := by
  obtain ⟨d, hfin, -, -⟩ | ⟨-, herr⟩ := readDigest_cases c
  · exact absurd hfin hp
  · exact herr

theorem exec_digest_of_ok {s : State} {d : DigestBytes} (hr : readDigest s.engine.ctx = .ok d) :
    exec .digest s = .next (respond s.engine.ctx d.toList s) := by
  simp only [exec, execDigest, hr]

theorem exec_digest_of_error {s : State} {code : ErrorCode} (hr : readDigest s.engine.ctx = .error code) :
    exec .digest s = .next (raiseError code s) := by
  simp only [exec, execDigest, hr]

theorem exec_hexDigest_of_ok {s : State} {d : DigestBytes} (hr : readDigest s.engine.ctx = .ok d) :
    exec .hexDigest s = .next (respond s.engine.ctx (hexOf d) s) := by
  simp only [exec, execHexDigest, hr]

theorem exec_hexDigest_of_error {s : State} {code : ErrorCode} (hr : readDigest s.engine.ctx = .error code) :
    exec .hexDigest s = .next (raiseError code s) := by
  simp only [exec, execHexDigest, hr]

/-- Settles O18: the one next state of CREATE, in every phase. -/
theorem createRule : Obligations.CreateRule := ⟨rfl, exec_create⟩

/-- A byte of a 32-bit number, as the remainder of a quotient: how R43 cuts `N` into bytes. -/
theorem extract_byte_ofNat (n : Nat) {k : Nat} (hk : k + 8 ≤ 32) :
    (BitVec.ofNat 32 n).extractLsb' k 8 = BitVec.ofNat 8 (n / 2 ^ k) := by
  apply BitVec.eq_of_toNat_eq
  rw [extract_byte_toNat, BitVec.toNat_ofNat, BitVec.toNat_ofNat]
  have hpow : (2 : Nat) ^ 32 = 2 ^ k * 2 ^ (32 - k) := by rw [← pow_add]; congr 1; omega
  have hdvd : (256 : Nat) ∣ 2 ^ (32 - k) := pow_dvd_pow 2 (show 8 ≤ 32 - k by omega)
  rw [hpow, Nat.mod_mul_right_div_self, Nat.mod_mod_of_dvd _ hdvd]

/-- Settles O19: the frame is that of `encode_update`, each byte of `N` read as a quotient; the two phases are the two
cases of UPDATE. -/
theorem updateRule : Obligations.UpdateRule := by
  refine fun data _ => ⟨?_, fun s hp => exec_update_of_ne data hp, fun s hp => exec_update_of_finalized data hp⟩
  have hframe := encode_update data
  simp only [extract_byte_ofNat data.length, Nat.reduceAdd, Nat.reduceLeDiff, pow_zero, Nat.div_one] at hframe
  exact hframe

/-- Settles O20: the two cases of Absorb. -/
theorem absorbRule : Obligations.AbsorbRule :=
  fun c x => ⟨absorb_of_room c x, fun full => absorb_of_full c x (by omega)⟩

/-- Settles O27: the two answers of the digest read. -/
theorem digestRule : Obligations.DigestRule :=
  ⟨rfl, fun _ => ⟨fun d hp hd => ⟨exec_digest_of_ok (readDigest_of_some hp hd), d.length_toList⟩,
    fun hp => exec_digest_of_error (readDigest_of_ne hp)⟩⟩

end Sys2Proof.Machine
end

section
/-! The hexadecimal digest (40_commands.md R64, R65). -/

namespace Sys2Proof.Machine

/-- The character of a nibble as a number (R65). -/
theorem hexChr_toNat (v : BitVec 4) :
    (hexChr v).toNat = if v.toNat ≤ 9 then 0x30 + v.toNat else 0x61 + (v.toNat - 10) := by
  revert v
  decide

theorem highNibble_toNat (b : Byte) : (b.extractLsb' 4 4).toNat = b.toNat / 16 := by
  have := b.isLt
  rw [BitVec.extractLsb'_toNat, Nat.shiftRight_eq_div_pow]
  omega

theorem lowNibble_toNat (b : Byte) : (b.extractLsb' 0 4).toNat = b.toNat % 16 := by
  rw [BitVec.extractLsb'_toNat, Nat.shiftRight_zero]

/-- Byte `i` stands at the places `2i` and `2i + 1` of the characters (R64). -/
theorem flatMap_hexPair_getElem? (bs : List Byte) (i : Nat) :
    (bs.flatMap hexPair)[2 * i]? = bs[i]?.map (fun b => hexChr (b.extractLsb' 4 4)) ∧
      (bs.flatMap hexPair)[2 * i + 1]? = bs[i]?.map (fun b => hexChr (b.extractLsb' 0 4)) := by
  induction bs generalizing i with
  | nil => exact ⟨rfl, rfl⟩
  | cons b bs ih =>
    cases i with
    | zero => exact ⟨rfl, rfl⟩
    | succ i => exact ih i

/-- The characters of a digest byte (R64). -/
theorem hexOf_getElem? (d : DigestBytes) {i : Nat} (hi : i < 32) :
    (hexOf d)[2 * i]? = some (hexChr (d[i].extractLsb' 4 4)) ∧
      (hexOf d)[2 * i + 1]? = some (hexChr (d[i].extractLsb' 0 4)) := by
  have hbyte : d.toList[i]? = some d[i] := by simp [hi]
  obtain ⟨high, low⟩ := flatMap_hexPair_getElem? d.toList i
  rw [hbyte] at high low
  exact ⟨high, low⟩

/-- Settles O28: the text is `hexOf` of the digest, whose characters `hexOf_getElem?` places and `hexChr_toNat` numbers. -/
theorem hexDigestRule : Obligations.HexDigestRule := by
  refine ⟨rfl, fun s => ⟨fun d hp hd => ?_, fun hp => exec_hexDigest_of_error (readDigest_of_ne hp)⟩⟩
  refine ⟨hexOf d, exec_hexDigest_of_ok (readDigest_of_some hp hd), hexOf_length d, fun i hi => ?_⟩
  obtain ⟨high, low⟩ := hexOf_getElem? d hi
  refine ⟨_, _, high, low, ?_, ?_⟩
  · rw [hexChr_toNat, highNibble_toNat]
  · rw [hexChr_toNat, lowNibble_toNat]

end Sys2Proof.Machine
end

section
/-! The padding of FINALIZE (40_commands.md R58 to R61): what each of its writes makes of the buffer as a list of bytes,
and from them the last block or the last two. -/

namespace Sys2Proof.Machine

/-! The writes into a block -/

theorem zeroFill_toList (b : Block) {lo hi : Nat} (hlo : lo ≤ hi) (hhi : hi ≤ 64) :
    (zeroFill b lo hi).toList = b.toList.take lo ++ List.replicate (hi - lo) 0 ++ b.toList.drop hi := by
  have hfront : (b.toList.take lo).length = lo := by simp; omega
  have hzeros : (b.toList.take lo ++ List.replicate (hi - lo) 0).length = hi := by simp; omega
  apply List.ext_getElem
  · simp; omega
  · intro j hj _
    rw [Vector.length_toList] at hj
    rw [Vector.getElem_toList, zeroFill_getElem b lo hi j hj]
    rcases Nat.lt_or_ge j hi with below | beyond
    · rw [List.getElem_append_left (by omega)]
      rcases Nat.lt_or_ge j lo with front | zeros
      · rw [List.getElem_append_left (by omega), if_neg (by omega), List.getElem_take, Vector.getElem_toList]
      · rw [List.getElem_append_right (by omega), if_pos ⟨zeros, below⟩, List.getElem_replicate]
    · rw [List.getElem_append_right (by omega), if_neg (by omega), List.getElem_drop, Vector.getElem_toList]
      congr 1
      omega

theorem writeCount_toList (b : Block) (total : BitVec 64) :
    (writeCount b total).toList =
      b.toList.take 56 ++ (List.range 8).map (fun k => total.extractLsb' (56 - 8 * k) 8) := by
  apply List.ext_getElem
  · simp
  · intro j hj _
    rw [Vector.length_toList] at hj
    rcases Nat.lt_or_ge j 56 with low | high
    · simp [writeCount_getElem_low b total j low, low]
    · obtain ⟨k, rfl⟩ := Nat.exists_eq_add_of_le high
      simp [writeCount_getElem_high b total k (by omega)]

/-- After the mark the buffered bytes and 0x80 stand at the front (R58). -/
theorem markEnd_take (c : Context) :
    (markEnd c).buf.toList.take (c.len.val + 1) = c.buf.toList.take c.len.val ++ [0x80] := by
  have hlen : c.len.val < (c.buf.toList.set c.len.val 0x80).length := by simp
  simp only [markEnd, Vector.toList_set]
  rw [List.take_succ_eq_append_getElem hlen, List.getElem_set_self, List.take_set_of_le (Nat.le_refl _)]

/-! The blocks FINALIZE transforms -/

/-- The last block where one is enough: PadOne and the bit count after the mark (R59, R61). -/
def onlyBlock (c : Context) : Block := writeCount (zeroFill (markEnd c).buf (c.len.val + 1) 56) (totalBits c)

/-- The block PadTwo transforms (R60). -/
def markBlock (c : Context) : Block := zeroFill (markEnd c).buf (c.len.val + 1) 64

/-- The last block after PadTwo: zeros and the bit count (R60, R61). -/
def countBlock (c : Context) : Block := writeCount (zeroFill (markBlock c) 0 56) (totalBits c)

theorem onlyBlock_toList {c : Context} (hlen : c.len.val ≤ 55) :
    (onlyBlock c).toList = c.buf.toList.take c.len.val ++ [0x80] ++ List.replicate (55 - c.len.val) 0 ++
      (List.range 8).map (fun k => (totalBits c).extractLsb' (56 - 8 * k) 8) := by
  have hzeros : 56 - (c.len.val + 1) = 55 - c.len.val := by omega
  rw [onlyBlock, writeCount_toList, zeroFill_toList _ (by omega) (by omega), markEnd_take, hzeros,
    List.take_left' (by simp; omega)]

theorem markBlock_toList (c : Context) :
    (markBlock c).toList = c.buf.toList.take c.len.val ++ [0x80] ++ List.replicate (63 - c.len.val) 0 := by
  have hzeros : 64 - (c.len.val + 1) = 63 - c.len.val := by omega
  rw [markBlock, zeroFill_toList _ (by omega) (by omega), markEnd_take, hzeros, List.drop_of_length_le (by simp),
    List.append_nil]

theorem countBlock_toList (c : Context) :
    (countBlock c).toList = List.replicate 56 0 ++
      (List.range 8).map (fun k => (totalBits c).extractLsb' (56 - 8 * k) 8) := by
  rw [countBlock, writeCount_toList, zeroFill_toList _ (by omega) (by omega), List.take_zero, List.nil_append,
    List.take_left' (by simp)]

/-! The context FINALIZE leaves -/

theorem pad_markEnd_of_le {c : Context} (hlen : c.len.val ≤ 55) :
    pad (markEnd c) = { c with buf := zeroFill (markEnd c).buf (c.len.val + 1) 56 } := if_pos hlen

theorem pad_markEnd_of_ge {c : Context} (hlen : 56 ≤ c.len.val) :
    pad (markEnd c) = { c with h := transform c.h (markBlock c), buf := zeroFill (markBlock c) 0 56 } :=
  if_neg (show ¬ c.len.val ≤ 55 by omega)

/-- FINALIZE with a fill of at most 55: one Transform (R59, R61). -/
theorem finalizeCtx_of_le {c : Context} (hlen : c.len.val ≤ 55) :
    finalizeCtx c = { c with buf := onlyBlock c, h := transform c.h (onlyBlock c), phase := .finalized,
                             dig := some (digestOf (transform c.h (onlyBlock c))) } := by
  simp only [finalizeCtx, pad_markEnd_of_le hlen, close, onlyBlock]

/-- FINALIZE with a fill of 56 or more: two Transforms (R60, R61). -/
theorem finalizeCtx_of_ge {c : Context} (hlen : 56 ≤ c.len.val) :
    finalizeCtx c = { c with buf := countBlock c, h := transform (transform c.h (markBlock c)) (countBlock c),
                             phase := .finalized,
                             dig := some (digestOf (transform (transform c.h (markBlock c)) (countBlock c))) } := by
  simp only [finalizeCtx, pad_markEnd_of_ge hlen, close, countBlock]

/-- Settles O23: the two cases of FINALIZE; `finalizeCtx` is R58's pseudocode with its parts named. -/
theorem finalizeRule : Obligations.FinalizeRule :=
  ⟨rfl, fun _ => ⟨exec_finalize_of_ne, exec_finalize_of_finalized⟩⟩

/-- Settles O24: the block is `onlyBlock`. -/
theorem finalizeOneBlock : Obligations.FinalizeOneBlock :=
  fun _ hp hlen => ⟨_, exec_finalize_of_ne hp, _, onlyBlock_toList hlen, finalizeCtx_of_le hlen⟩

/-- Settles O25: the blocks are `markBlock` and `countBlock`. -/
theorem finalizeTwoBlocks : Obligations.FinalizeTwoBlocks :=
  fun s hp hlen => ⟨_, exec_finalize_of_ne hp, _, _, markBlock_toList s.engine.ctx, countBlock_toList s.engine.ctx,
    finalizeCtx_of_ge hlen⟩

end Sys2Proof.Machine
end

section
/-! The word functions bit by bit (41_transform.md R72 to R79). -/

namespace Sys2Proof.Machine

/-- The bits of a rotation (R72): with `i + n < 32` they come from the right
shift, and those that wrapped from the left. -/
theorem rotr_getLsbD (x : Word) {n i : Nat} (hn : n < 32) (hi : i < 32) :
    (rotr x n).getLsbD i = x.getLsbD ((i + n) % 32) := by
  rw [rotr, BitVec.getLsbD_or, BitVec.getLsbD_ushiftRight, BitVec.getLsbD_shiftLeft, Nat.add_comm n i]
  rcases Nat.lt_or_ge (i + n) 32 with inside | wrapped
  · have hshift : i < 32 - n := by omega
    rw [Nat.mod_eq_of_lt inside]
    simp [hshift]
  · have hshift : ¬ i < 32 - n := by omega
    have hplace : i - (32 - n) = (i + n) % 32 := by omega
    rw [BitVec.getLsbD_of_ge x _ wrapped, hplace]
    simp [hi, hshift]

/-- The bits of a shift, zero where they come from outside the word (R73). -/
theorem shr_getLsbD (x : Word) (n i : Nat) :
    (shr x n).getLsbD i = (decide (i + n < 32) && x.getLsbD (i + n)) := by
  rw [shr, BitVec.getLsbD_ushiftRight, Nat.add_comm n i]
  rcases Nat.lt_or_ge (i + n) 32 with inside | outside
  · rw [decide_eq_true inside, Bool.true_and]
  · rw [BitVec.getLsbD_of_ge x _ outside, Bool.and_false]

theorem ch_getLsbD (x y z : Word) (i : Nat) :
    (ch x y z).getLsbD i = if x.getLsbD i then y.getLsbD i else z.getLsbD i := by
  rw [ch, BitVec.getLsbD_xor, BitVec.getLsbD_and, BitVec.getLsbD_and, BitVec.getLsbD_not]
  rcases Nat.lt_or_ge i 32 with inside | outside
  · cases x.getLsbD i <;> simp [inside]
  · simp [BitVec.getLsbD_of_ge _ _ outside]

theorem maj_getLsbD (x y z : Word) (i : Nat) :
    (maj x y z).getLsbD i =
      (((x.getLsbD i && y.getLsbD i) ^^ (x.getLsbD i && z.getLsbD i)) ^^ (y.getLsbD i && z.getLsbD i)) := by
  simp only [maj, BitVec.getLsbD_xor, BitVec.getLsbD_and]

/-- The exclusive or of the three conjunctions in pairs is the majority. -/
theorem xor_ands_iff_two_le (a b c : Bool) :
    (((a && b) ^^ (a && c)) ^^ (b && c)) = true ↔ 2 ≤ a.toNat + b.toNat + c.toNat := by
  revert a b c
  decide

/-- Settles O39: the shift's zero fill is the false branch. -/
theorem rotateAndShiftBits : Obligations.RotateAndShiftBits := by
  refine fun x n i _ hn hi => ⟨rotr_getLsbD x hn hi, ?_⟩
  rw [shr_getLsbD]
  split <;> simp [*]

/-- Settles O40: bit by bit, Ch is the choice and Maj the majority of `xor_ands_iff_two_le`. -/
theorem choiceAndMajorityBits : Obligations.ChoiceAndMajorityBits := by
  refine fun x y z i => ⟨ch_getLsbD x y z i, ?_⟩
  rw [maj_getLsbD]
  exact xor_ands_iff_two_le _ _ _

/-- Settles O41: each bit of an exclusive or is that of the bits, and the amounts of the rotations are below 32. -/
theorem mixingFunctionBits : Obligations.MixingFunctionBits := by
  intro x i hi
  have rotated {n : Nat} (hn : n < 32) := rotr_getLsbD x hn hi
  refine ⟨?_, ?_, ?_, ?_⟩
  · simp only [bsig0, BitVec.getLsbD_xor, rotated, Nat.reduceLT]
  · simp only [bsig1, BitVec.getLsbD_xor, rotated, Nat.reduceLT]
  · simp only [ssig0, BitVec.getLsbD_xor, rotated, shr_getLsbD, Nat.reduceLT]
  · simp only [ssig1, BitVec.getLsbD_xor, rotated, shr_getLsbD, Nat.reduceLT]

end Sys2Proof.Machine
end

section
/-! The message schedule and the rounds (41_transform.md R80 to R85): each word of the schedule is `scheduleNext` of the
words before it, and each state of the working variables is `roundStep` of the one before it. -/

namespace Sys2Proof.Machine

/-! The schedule -/

theorem schedule_length (blk : Block) : (schedule blk).length = 64 := by
  rw [schedule, scheduleExtend_length, scheduleHead_length]

/-- What an extended schedule begins with. -/
theorem take_scheduleExtend (n : Nat) (w : List Word) : (scheduleExtend n w).take w.length = w := by
  apply List.ext_getElem?
  intro t
  rcases Nat.lt_or_ge t w.length with old | beyond
  · rw [List.getElem?_take_of_lt old, scheduleExtend_old n w t old]
  · rw [List.getElem?_take_eq_none beyond, List.getElem?_eq_none beyond]

/-- Each word that extending adds is the one that follows those before it (R81). -/
theorem scheduleExtend_new (n : Nat) (w : List Word) {t : Nat} (hle : w.length ≤ t) (hlt : t < w.length + n) :
    (scheduleExtend n w)[t]? = some (scheduleNext ((scheduleExtend n w).take t)) := by
  induction n generalizing w with
  | zero => omega
  | succ n ih =>
    have grown : (w ++ [scheduleNext w]).length = w.length + 1 := List.length_append
    rcases Nat.eq_or_lt_of_le hle with rfl | later
    · rw [take_scheduleExtend, scheduleExtend, scheduleExtend_old n _ _ (by omega), List.getElem?_concat_length]
    · exact ih _ (by omega) (by omega)

/-- The first 16 words (R80). -/
theorem schedule_getElem?_head (blk : Block) {t : Nat} (ht : t < 16) :
    (schedule blk)[t]? = some (be32 blk[4 * t] blk[4 * t + 1] blk[4 * t + 2] blk[4 * t + 3]) := by
  rw [schedule, scheduleExtend_old _ _ _ (by rwa [scheduleHead_length]), scheduleHead, List.getElem?_ofFn, dif_pos ht]

/-- The word that follows the first `t` words of a list, by the four words it is computed from (R81). -/
theorem scheduleNext_take {w : List Word} {t : Nat} (lower : 16 ≤ t) (upper : t ≤ w.length) :
    scheduleNext (w.take t) = ssig1 w[t - 2] + w[t - 7] + ssig0 w[t - 15] + w[t - 16] := by
  have known (k : Nat) (hk : 0 < k) : (w.take t).getD (t - k) 0 = w[t - k] := by
    rw [List.getD_eq_getElem _ _ (by rw [List.length_take_of_le upper]; omega), List.getElem_take]
  simp only [scheduleNext, List.length_take_of_le upper, known, Nat.ofNat_pos]

/-- Settles O43: the first 16 words are `scheduleHead`, and each later word is `scheduleNext` of those before it. -/
theorem scheduleWords : Obligations.ScheduleWords := by
  refine fun blk => ⟨schedule_length blk, fun t ht => schedule_getElem?_head blk ht, fun t lower upper => ?_⟩
  have length := schedule_length blk
  have next : (schedule blk)[t]? = some (scheduleNext ((schedule blk).take t)) :=
    scheduleExtend_new 48 _ (by rwa [scheduleHead_length]) (by rwa [scheduleHead_length])
  rw [scheduleNext_take lower (by omega)] at next
  exact ⟨_, _, _, _, List.getElem?_eq_getElem (by omega), List.getElem?_eq_getElem (by omega),
    List.getElem?_eq_getElem (by omega), List.getElem?_eq_getElem (by omega), next⟩

/-! The rounds -/

/-- The working variables after the first `t` rounds (R83, R84). -/
def roundsUpTo (h : Chain) (blk : Block) (t : Nat) : Work :=
  ((roundConstants.zip (schedule blk)).take t).foldl roundStep (Work.ofChain h)

theorem length_constants_zip_schedule (blk : Block) : (roundConstants.zip (schedule blk)).length = 64 := by
  rw [List.length_zip, schedule_length]
  rfl

/-- Round `t` takes its own constant and schedule word (R83, R84). -/
theorem roundsUpTo_succ (h : Chain) (blk : Block) {t : Nat} {k w : Word} (hk : roundConstants[t]? = some k)
    (hw : (schedule blk)[t]? = some w) : roundsUpTo h blk (t + 1) = roundStep (roundsUpTo h blk t) (k, w) := by
  have hkw : (roundConstants.zip (schedule blk))[t]? = some (k, w) := List.getElem?_zip_eq_some.mpr ⟨hk, hw⟩
  rw [roundsUpTo, List.take_add_one, hkw, List.foldl_append]
  rfl

/-- After 64 rounds no round is left (R84). -/
theorem transform_eq_feedForward (h : Chain) (blk : Block) :
    transform h blk = feedForward h (roundsUpTo h blk 64) := by
  rw [roundsUpTo, List.take_of_length_le (length_constants_zip_schedule blk).le]
  rfl

/-- Settles O44: the working variables are those of `roundsUpTo`, whose steps are the rounds. -/
theorem transformRounds : Obligations.TransformRounds := by
  refine fun h blk => ⟨roundsUpTo h blk, rfl, fun t ht => ?_, transform_eq_feedForward h blk⟩
  have hk : roundConstants[t]? = some roundConstants[t] := List.getElem?_eq_getElem ht
  have hw := List.getElem?_eq_getElem (show t < (schedule blk).length by rwa [schedule_length])
  exact ⟨_, _, _, _, hk, hw, rfl, rfl, roundsUpTo_succ h blk hk hw⟩

end Sys2Proof.Machine
end

section
/-! The constant tables (41_transform.md R70, R71, R89): both tables are compared with the integer roots of Mathlib, which
bracket the exact roots. -/

namespace Sys2Proof.Machine

/-- The `e`-th root of `p` times 2^32, rounded down (R89). -/
def scaledRoot (e p : Nat) : Nat := Nat.nthRoot e (p * 2 ^ (32 * e))

theorem scaledRoot_bounds {e : Nat} (he : e ≠ 0) (p : Nat) :
    scaledRoot e p ^ e ≤ p * 2 ^ (32 * e) ∧ p * 2 ^ (32 * e) < (scaledRoot e p + 1) ^ e :=
  ⟨Nat.pow_nthRoot_le (.inl he), Nat.lt_pow_nthRoot_add_one he _⟩

/-- The primes the tables are made from (R89). -/
def constantPrimes : List Nat :=
  [2, 3, 5, 7, 11, 13, 17, 19, 23, 29, 31, 37, 41, 43, 47, 53] ++
  [59, 61, 67, 71, 73, 79, 83, 89, 97, 101, 103, 107, 109, 113, 127, 131] ++
  [137, 139, 149, 151, 157, 163, 167, 173, 179, 181, 191, 193, 197, 199, 211, 223] ++
  [227, 229, 233, 239, 241, 251, 257, 263, 269, 271, 277, 281, 283, 293, 307, 311]

/-- They are the numbers from 2 to 311 without a smaller divisor but 1. -/
theorem filter_range_eq_constantPrimes :
    ((List.range 312).filter fun p => 2 ≤ p ∧ ∀ d ∈ List.range p, d < 2 ∨ p % d ≠ 0) = constantPrimes := by
  decide +kernel

theorem roundConstants_eq_cubeRoots :
    ∀ i : Fin 64, roundConstants[i].toNat = scaledRoot 3 constantPrimes[i] % 2 ^ 32 := by
  decide +kernel

theorem iv_eq_squareRoots : ∀ i : Fin 8, iv[i].toNat = scaledRoot 2 constantPrimes[i] % 2 ^ 32 := by
  decide +kernel

/-- Settles O38: each root is `scaledRoot`, and the tables are its values by evaluation. -/
theorem constantsAreRootFractions : Obligations.ConstantsAreRootFractions := by
  unfold Obligations.ConstantsAreRootFractions
  rw [filter_range_eq_constantPrimes]
  refine ⟨rfl, rfl, fun i hi => ?_, fun i hi => ?_⟩
  · have hprime : i < constantPrimes.length := hi
    obtain ⟨lower, upper⟩ := scaledRoot_bounds three_ne_zero constantPrimes[i]
    exact ⟨_, _, _, List.getElem?_eq_getElem hprime, List.getElem?_eq_getElem hi, lower, upper,
      roundConstants_eq_cubeRoots ⟨i, hi⟩⟩
  · have hprime : i < constantPrimes.length := Nat.lt_trans hi (by decide)
    obtain ⟨lower, upper⟩ := scaledRoot_bounds two_ne_zero constantPrimes[i]
    exact ⟨_, _, List.getElem?_eq_getElem hprime, lower, upper, iv_eq_squareRoots ⟨i, hi⟩⟩

end Sys2Proof.Machine
end

section
/-! Errors and the FAULT bit (60_exceptions.md R92, R93): an error answer keeps the context but for FAULT, and only the
delivery of a reset clears FAULT. -/

namespace Sys2Proof.Machine

/-- The context of a command that answers an error (R92). -/
theorem commandResult_ctx_of_error {i : Instr} {c : Context} {code : ErrorCode}
    (h : (commandResult i c).2 = .error code) : (commandResult i c).1 = c.setFault := by
  rcases commandResult_cases i c with ⟨code', hres⟩ | ⟨data, hok, -⟩
  · rw [hres]
  · rw [hok] at h
    cases h

/-- No command clears FAULT: an error sets it, and a success does not write it (R93). -/
theorem commandResult_fault_of_fault (i : Instr) {c : Context} (h : c.fault = true) :
    (commandResult i c).1.fault = true := by
  rcases commandResult_cases i c with ⟨code, hres⟩ | ⟨data, -, hkept⟩
  · rw [hres, setFault_fault]
  · rw [hkept, h]

/-- A step on a port with a reserved opcode at its front, as the fetch reads it (R46). -/
theorem step_of_fetch_reserved {s : State} {op : Byte} {rest : List Byte} (h : s.fetch = .reserved op rest) :
    step s = .next (raiseError .reserved (s.withPort rest)) := by
  simp only [step, h, rejectReserved]

/-- Settles O33: a command's error answer is the error case of `commandResult_cases`, and a reserved opcode raises
its error on the state without the frame. -/
theorem errorFrame : Obligations.ErrorFrame := by
  refine ⟨fun i s t code hexec hresp => ⟨?_, rfl⟩, fun s op rest hfetch =>
    ⟨_, step_of_fetch_reserved hfetch, rfl, rfl⟩⟩
  obtain rfl := exec_next hexec
  rw [finish_respPort, List.append_cancel_left_eq, List.singleton_inj] at hresp
  exact commandResult_ctx_of_error hresp

/-- Where only the selected context changes and its FAULT stays set, the FAULT of every context stays set. -/
theorem fault_kept_of_frame {s t : State} (hl : t.lower = s.lower) (hu : t.upper = s.upper)
    (hsel : s.engine.ctx.fault = true → t.engine.ctx.fault = true) {k : Nat} {e : Engine}
    (he : s.engines[k]? = some e) (hf : e.ctx.fault = true) :
    ∃ e', t.engines[k]? = some e' ∧ e'.ctx.fault = true := by
  rw [engines_of_frame hl hu]
  by_cases hk : s.index = k
  · subst hk
    have heq : s.engine = e := Option.some.inj ((engines_index s).symm.trans he)
    exact ⟨t.engine, List.getElem?_set_self (List.getElem?_eq_some_iff.mp he).1, hsel (heq ▸ hf)⟩
  · exact ⟨e, by rw [List.getElem?_set_ne hk, he], hf⟩

/-- Settles O46: a command, a rejected opcode and arriving bytes change the selected context alone and keep its FAULT
set; waiting changes nothing, and the reset is excluded. -/
theorem faultIsSticky : Obligations.FaultIsSticky := by
  intro s t k e hstep he hf hreset
  rcases step_next hstep with ⟨i, rest, -, rfl⟩ | ⟨op, rest, -, rfl⟩ | ⟨-, -, rfl⟩ |
    ⟨j, bs, later, u, -, -, hsel, rfl⟩ | ⟨j, later, u, hfetch, hin, -, -⟩
  · exact fault_kept_of_frame (by simp) (by simp) (commandResult_fault_of_fault i) he hf
  · exact fault_kept_of_frame (by simp) (by simp) (fun _ => setFault_fault _) he hf
  · exact ⟨e, he, hf⟩
  · have hu : u.engines[k]? = some e := by rw [(select_spec hsel).1]; exact he
    exact fault_kept_of_frame (by simp) (by simp) (by simp) hu hf
  · exact absurd ⟨hfetch, by rw [hin, List.head?_cons]⟩ (hreset j)

end Sys2Proof.Machine
end

section
/-! The frames of commands (30_encoding.md R41 to R43, R46, R47, R50): the encoder and the decoder undo each other, and from
that, what the decoder consumes, waits for, and tells from the first byte alone. -/

namespace Sys2Proof

open Machine

/-! The two directions -/

/-- The frame of an UPDATE with its length bytes named (R43). -/
theorem encode_update_of_length {n0 n1 n2 n3 : Byte} {data : List Byte} (h : data.length = (be32 n0 n1 n2 n3).toNat) :
    encode (.update data) = 0x02 :: n0 :: n1 :: n2 :: n3 :: data := by
  have hword : BitVec.ofNat 32 data.length = be32 n0 n1 n2 n3 := by rw [h, BitVec.ofNat_toNat, BitVec.setWidth_eq]
  rw [encode, Instr.operandBytes, hword, bytesBE32_be32]
  rfl

/-- Every length that fits the length field is spelled by four bytes (R43). -/
theorem exists_be32_toNat {n : Nat} (h : n < 2 ^ 32) : ∃ n0 n1 n2 n3, n = (be32 n0 n1 n2 n3).toNat :=
  ⟨_, _, _, _, by rw [be32_bytesBE32 (BitVec.ofNat 32 n), BitVec.toNat_ofNat, Nat.mod_eq_of_lt h]⟩

/-- Settles O8: the length bytes of an UPDATE frame put together again are the length of its payload, and every other
frame is one byte. -/
theorem decodeEncodeRoundTrip : Obligations.DecodeEncodeRoundTrip := by
  intro i rest hwf
  cases i with
  | update data =>
    obtain ⟨n0, n1, n2, n3, hlen⟩ := exists_be32_toNat ((update_wellFormed data).mp hwf)
    rw [encode_update_of_length hlen]
    exact decodeUpdate_of_length rest hlen
  | create => rfl
  | finalize => rfl
  | digest => rfl
  | hexDigest => rfl

/-- Settles O9: the shape of the bytes in front of the decoder (`decodeFrame_command`) is the frame. -/
theorem decodedBytesAreTheFrame : Obligations.DecodedBytesAreTheFrame := by
  intro bs i rest h
  obtain ⟨n0, n1, n2, n3, data, rfl, rfl, hlen⟩ | ⟨hi, rfl⟩ := decodeFrame_command h
  · exact ⟨(update_wellFormed data).mpr (hlen ▸ (be32 n0 n1 n2 n3).isLt), by rw [encode_update_of_length hlen]; rfl⟩
  · obtain rfl | rfl | rfl | rfl := hi <;> exact ⟨rfl, rfl⟩

/-- A frame is found whatever follows it. -/
theorem decodeFrame_append {bs rest : List Byte} {i : Instr} (h : decodeFrame bs = .command i rest) (more : List Byte) :
    decodeFrame (bs ++ more) = .command i (rest ++ more) := by
  obtain ⟨hwf, rfl⟩ := decodedBytesAreTheFrame bs i rest h
  rw [List.append_assoc, decodeEncodeRoundTrip i _ hwf]

/-! Frames cut short (R50) -/

/-- A payload cut short, completed with zero bytes. -/
theorem encode_update_zeros {n0 n1 n2 n3 : Byte} {data : List Byte} (h : data.length ≤ (be32 n0 n1 n2 n3).toNat) :
    ∃ payload, (Instr.update payload).WellFormed ∧ encode (.update payload) =
      0x02 :: n0 :: n1 :: n2 :: n3 :: (data ++ List.replicate ((be32 n0 n1 n2 n3).toNat - data.length) 0) := by
  have hlen : (data ++ List.replicate ((be32 n0 n1 n2 n3).toNat - data.length) 0).length = (be32 n0 n1 n2 n3).toNat := by
    rw [List.length_append, List.length_replicate]; omega
  exact ⟨_, (update_wellFormed _).mpr (hlen.trans_lt (be32 n0 n1 n2 n3).isLt), encode_update_of_length hlen⟩

/-- Operand bytes the decoder waits behind can be completed to a frame. -/
theorem exists_frame_of_decodeUpdate_incomplete {tail : List Byte} (h : decodeUpdate tail = .incomplete) :
    ∃ payload missing, (Instr.update payload).WellFormed ∧ missing ≠ [] ∧
      0x02 :: tail ++ missing = encode (.update payload) := by
  obtain ⟨_, _, _, _, _, _, -, -, hd⟩ | ⟨n0, n1, n2, n3, data, rfl, hlt, -⟩ | ⟨hlt, -⟩ := decodeUpdate_cases tail
  · rw [hd] at h; cases h
  · obtain ⟨payload, hwf, hframe⟩ := encode_update_zeros hlt.le
    refine ⟨payload, _, hwf, ?_, hframe.symm⟩
    rw [Ne, List.replicate_eq_nil_iff]; omega
  · obtain ⟨n0, n1, n2, n3, hhead⟩ : ∃ n0 n1 n2 n3, tail ++ List.replicate (4 - tail.length) 0 = [n0, n1, n2, n3] :=
      List.length_eq_four.mp (by rw [List.length_append, List.length_replicate]; omega)
    obtain ⟨payload, hwf, hframe⟩ := encode_update_zeros (n0 := n0) (n1 := n1) (n2 := n2) (n3 := n3) (data := [])
      (Nat.zero_le _)
    refine ⟨payload, List.replicate (4 - tail.length) 0 ++ List.replicate (be32 n0 n1 n2 n3).toNat 0, hwf, ?_, ?_⟩
    · rw [Ne, List.append_eq_nil_iff, List.replicate_eq_nil_iff]; omega
    · rw [hframe, List.cons_append, ← List.append_assoc, hhead]
      rfl

/-- Settles O10: bytes cut short are completed with zero bytes; and were the front of a frame to decode to something, the
whole frame would decode to the same, with its last bytes left over. -/
theorem incompleteIsCutShort : Obligations.IncompleteIsCutShort := by
  refine fun bs => ⟨fun h => ?_, fun ⟨i, missing, hwf, hne, hframe⟩ => ?_⟩
  · obtain rfl | ⟨tail, rfl, htail⟩ := decodeFrame_incomplete h
    · exact ⟨.create, [0x01], rfl, List.cons_ne_nil _ _, rfl⟩
    · obtain ⟨payload, missing, hwf, hne, hframe⟩ := exists_frame_of_decodeUpdate_incomplete htail
      exact ⟨_, missing, hwf, hne, hframe⟩
  · have hwhole : decodeFrame (bs ++ missing) = .command i [] := by
      have := decodeEncodeRoundTrip i [] hwf
      rwa [List.append_nil, ← hframe] at this
    cases hbs : decodeFrame bs with
    | incomplete => rfl
    | command j rest =>
      rw [decodeFrame_append hbs missing] at hwhole
      injection hwhole with _ hrest
      exact absurd (List.append_eq_nil_iff.mp hrest).2 hne
    | reserved op rest =>
      obtain ⟨rfl, hop⟩ := decodeFrame_reserved_eq hbs
      rw [List.cons_append, decodeFrame_reserved hop] at hwhole
      cases hwhole

/-! Operands and lengths (R41, R43) -/

/-- Settles O6: the number of `be32` is R43's sum. -/
theorem updateOperandAssembly : Obligations.UpdateOperandAssembly := by
  intro n0 n1 n2 n3 data rest hlen
  apply decodeUpdate_of_length
  rw [hlen, be32_toNat]
  rfl

/-- Settles O7: both lengths are read off the shape of the decoded bytes. -/
theorem frameLengthIsConsumed : Obligations.FrameLengthIsConsumed := by
  refine fun bs => ⟨fun i rest h => ?_, fun op rest h => ?_⟩
  · obtain ⟨n0, n1, n2, n3, data, rfl, rfl, hlen⟩ | ⟨hi, rfl⟩ := decodeFrame_command h
    · have hconsumed : (0x02 :: n0 :: n1 :: n2 :: n3 :: (data ++ rest)).length - rest.length = 5 + data.length := by
        simp only [List.length_cons, List.length_append]; omega
      refine ⟨?_, ?_, hconsumed⟩
      · rw [hconsumed, hlen]; rfl
      · simp only [List.length_cons, List.length_append]; omega
    · obtain rfl | rfl | rfl | rfl := hi <;> simp [frameLength, Instr.opcode, Opcode.byte]
  · obtain ⟨rfl, hop⟩ := decodeFrame_reserved_eq h
    have hne : op ≠ 0x02 := by rintro rfl; cases hop
    exact ⟨if_neg hne, rfl⟩

/-! The first byte (R42, R46) -/

/-- A command without operands is known by its first byte. -/
theorem decodeFrame_eq_command_iff {i : Instr} (hi : i = .create ∨ i = .finalize ∨ i = .digest ∨ i = .hexDigest)
    (op : Byte) (tail : List Byte) : decodeFrame (op :: tail) = .command i tail ↔ op = i.opcode.byte := by
  constructor
  · intro h
    obtain ⟨_, _, _, _, _, rfl, -, -⟩ | ⟨-, heq⟩ := decodeFrame_command h
    · simp at hi
    · exact (List.cons.inj heq).1
  · rintro rfl
    obtain rfl | rfl | rfl | rfl := hi <;> rfl

theorem decodeFrame_eq_reserved_iff (op : Byte) (tail : List Byte) :
    decodeFrame (op :: tail) = .reserved op tail ↔ op = 0x00 ∨ 0x06 ≤ op.toNat := by
  rw [← decodeOpcode_eq_none]
  exact ⟨fun h => (decodeFrame_reserved_eq h).2, fun h => decodeFrame_reserved h tail⟩

/-- UPDATE is the one command of which the decoder may have to wait for bytes (R50). -/
theorem decodeFrame_update_or_incomplete_iff (op : Byte) (tail : List Byte) :
    ((∃ data rest, decodeFrame (op :: tail) = .command (.update data) rest) ∨ decodeFrame (op :: tail) = .incomplete) ↔
      op = 0x02 := by
  constructor
  · rintro (⟨data, rest, h⟩ | h)
    · obtain ⟨_, _, _, _, _, -, heq, -⟩ | ⟨hi, -⟩ := decodeFrame_command h
      · exact (List.cons.inj heq).1
      · simp at hi
    · obtain heq | ⟨_, heq, -⟩ := decodeFrame_incomplete h
      · cases heq
      · exact (List.cons.inj heq).1
  · rintro rfl
    rw [decodeFrame_update]
    obtain ⟨_, _, _, _, data, rest, -, -, h⟩ | ⟨_, _, _, _, _, -, -, h⟩ | ⟨-, h⟩ := decodeUpdate_cases tail
    · exact .inl ⟨data, rest, h⟩
    · exact .inr h
    · exact .inr h

/-- Settles O5: one equivalence for each kind of answer. -/
theorem opcodeBytesAreExact : Obligations.OpcodeBytesAreExact :=
  fun op tail => ⟨decodeFrame_eq_command_iff (.inl rfl) op tail, decodeFrame_eq_command_iff (.inr (.inl rfl)) op tail,
    decodeFrame_eq_command_iff (.inr (.inr (.inl rfl))) op tail, decodeFrame_eq_command_iff (.inr (.inr (.inr rfl))) op tail,
    decodeFrame_eq_reserved_iff op tail, decodeFrame_update_or_incomplete_iff op tail⟩

/-- Settles O4: each written frame is decoded by evaluation. -/
theorem decodesWrittenFrames : Obligations.DecodesWrittenFrames := by
  unfold Obligations.DecodesWrittenFrames
  decide +kernel

end Sys2Proof
end

section
/-! Steps and ports (00_scope.md R11; 20_memory.md R36; 40_commands.md R51): the frame in front of the port is executed,
frames that stand there together one after the other, and a placed table word at once. -/

namespace Sys2Proof.Machine

/-- A step on a port with a command's frame at its front, as the fetch reads it (R51). -/
theorem step_of_fetch_command {s : State} {i : Instr} {rest : List Byte} (h : s.fetch = .command i rest) :
    step s = exec i (s.withPort rest) := by
  simp only [step, h]

/-- Settles O11: the fetch reads the port, and `withPort` is the statement's record update. -/
theorem stepRunsDecodedFrame : Obligations.StepRunsDecodedFrame :=
  fun _ _ _ h => step_of_fetch_command h

theorem step_withPort_encode {i : Instr} (hwf : i.WellFormed) (s : State) (rest : List Byte) :
    step (s.withPort (encode i ++ rest)) = exec i (s.withPort rest) :=
  step_of_fetch_command (decodeEncodeRoundTrip i rest hwf)

/-- No command reads the bytes behind its frame. -/
theorem exec_withPort (i : Instr) (s : State) (bs : List Byte) :
    exec i (s.withPort bs) =
      .next ((finish (commandResult i s.engine.ctx).1 (commandResult i s.engine.ctx).2 s).withPort bs) :=
  exec_eq i (s.withPort bs)

theorem execAll_cons {i : Instr} {s t : State} (h : exec i s = .next t) (more : List Instr) :
    execAll (i :: more) s = execAll more t := by
  simp only [execAll, h]

/-- Settles O12, by induction on the commands: a step takes the first frame, and the others stay in front of the port. -/
theorem stepsComposeSequentially : Obligations.StepsComposeSequentially := by
  intro cmds s rest hwf
  induction cmds generalizing s with
  | nil => rfl
  | cons i cmds ih =>
    obtain ⟨hi, hcmds⟩ := List.forall_mem_cons.mp hwf
    have hstep := step_withPort_encode hi s (cmds.flatMap encode ++ rest)
    rw [exec_withPort] at hstep
    rw [List.flatMap_cons, List.append_assoc, List.length_cons, run_succ Sys2Proof.core _ hstep, ih _ hcmds,
      execAll_cons (exec_withPort i s rest)]

/-! Table words (DESIGN CHOICE, log entry 7) -/

/-- Where the first bytes give the length of a frame: a byte that is not UPDATE's, or the operands of UPDATE (R41). -/
theorem frameLength_eq_some {bs : List Byte} {n : Nat} (h : frameLength bs = some n) :
    (∃ op tail, op ≠ 0x02 ∧ bs = op :: tail ∧ n = 1) ∨
      ∃ n0 n1 n2 n3 tail, bs = 0x02 :: n0 :: n1 :: n2 :: n3 :: tail ∧ n = 5 + (be32 n0 n1 n2 n3).toNat := by
  unfold frameLength at h
  split at h
  · cases h
  · split at h
    · rename_i op
      subst op
      split at h
      · cases h
        exact .inr ⟨_, _, _, _, _, rfl, rfl⟩
      · cases h
    · rename_i hop
      cases h
      exact .inl ⟨_, _, hop, rfl, rfl⟩

/-- The length of a frame is found whatever follows the first bytes (R41). -/
theorem frameLength_append {bs : List Byte} {n : Nat} (h : frameLength bs = some n) (more : List Byte) :
    frameLength (bs ++ more) = some n := by
  obtain ⟨op, tail, hop, rfl, rfl⟩ | ⟨n0, n1, n2, n3, tail, rfl, rfl⟩ := frameLength_eq_some h
  · exact if_neg hop
  · rfl

/-- The length of a frame is found from the frame alone (R41). -/
theorem frameLength_take {bs : List Byte} {n : Nat} (h : frameLength bs = some n) : frameLength (bs.take n) = some n := by
  obtain ⟨op, tail, hop, rfl, rfl⟩ | ⟨n0, n1, n2, n3, tail, rfl, rfl⟩ := frameLength_eq_some h
  · exact if_neg hop
  · rw [Nat.add_comm]
    exact congrArg some (Nat.add_comm 5 _)

/-- A table word is completed to the length its first bytes give. -/
theorem tableFrame_of_frameLength {nbits w n : Nat} (h : frameLength (tableFrame nbits w) = some n) :
    (tableFrame nbits w).length = n := by
  unfold tableFrame at h ⊢
  dsimp only at h ⊢
  split at h
  next len hlen =>
    rw [frameLength_take (frameLength_append hlen _)] at h
    cases h
    rw [List.length_take, List.length_append, List.length_replicate]
    omega
  next hnone =>
    rw [hnone] at h
    cases h

/-- A table word that decodes to a command is that command's frame and nothing more. -/
theorem decodeFrame_tableFrame {nbits w : Nat} {i : Instr} (h : decodeTableWord nbits w = some i) :
    decodeFrame (tableFrame nbits w) = .command i [] := by
  unfold decodeTableWord at h
  split at h
  next j rest hframe =>
    cases h
    obtain ⟨hlen, hlt, -⟩ := (frameLengthIsConsumed _).1 i rest hframe
    have hall := tableFrame_of_frameLength hlen
    have hnil : rest = [] := List.length_eq_zero_iff.mp (by omega)
    rw [hframe, hnil]
  next => cases h
  next => cases h

/-- Settles O17: the frame of the word leaves behind it what stood on the port. -/
theorem placedWordIsExecuted : Obligations.PlacedWordIsExecuted :=
  fun s _ _ _ h => step_of_fetch_command (decodeFrame_append (decodeFrame_tableFrame h) s.engine.cmdPort)

end Sys2Proof.Machine
end

section
/-! The wait for bytes and the delivery of inputs (30_encoding.md R50; 60_exceptions.md R102, R104; 70_reset_and_hazards.md
R105), and what a step leaves alone. -/

namespace Sys2Proof.Machine

theorem step_of_fetch_incomplete {s : State} (h : s.fetch = .incomplete) : step s = await s := by
  simp only [step, h]

/-- The context an input is addressed to (R102). -/
def Input.target : Input → Nat
  | .bytes k _ => k
  | .reset k => k

/-- What an input does to the context it is addressed to, once that is selected (R50, R105). -/
def Input.arrive : Input → State → State
  | .bytes _ bs, u => u.receive bs
  | .reset _, u => u.resetEngine

theorem deliver_of_select {inp : Input} {s u : State} (h : s.select inp.target = some u) :
    deliver inp s = .next (inp.arrive u) := by
  cases inp with
  | bytes k bs => simp only [deliver, show s.select k = some u from h, Input.arrive]
  | reset k => simp only [deliver, show s.select k = some u from h, Input.arrive]

/-- The delivery of an input stops at a missing context (DESIGN CHOICE, log entry 10). -/
theorem deliver_of_missing {inp : Input} {s : State} (h : s.engines[inp.target]? = none) :
    deliver inp s = .fault (.noSuchContext inp.target) := by
  have hsel := select_eq_none.mpr h
  cases inp with
  | bytes k bs => simp only [deliver, show s.select k = none from hsel, Input.target]
  | reset k => simp only [deliver, show s.select k = none from hsel, Input.target]

/-- A step that waits delivers the next input (R50, R104). -/
theorem step_of_inputs_cons {s : State} {inp : Input} {later : List Input} (h : s.fetch = .incomplete)
    (hin : s.inputs = inp :: later) : step s = deliver inp { s with inputs := later } := by
  rw [step_of_fetch_incomplete h]
  simp only [await, hin]

/-- A step that waits selects the context of the next input, where there is one, and the input arrives there. -/
theorem step_arrive {s : State} {inp : Input} {later : List Input} {e : Engine} (h : s.fetch = .incomplete)
    (hin : s.inputs = inp :: later) (he : s.engines[inp.target]? = some e) :
    ∃ u, step s = .next (inp.arrive u) ∧ u.engine = e ∧ u.index = inp.target ∧ u.inputs = later := by
  obtain ⟨u, hu, rfl⟩ := select_of_getElem (s := { s with inputs := later }) he
  obtain ⟨-, -, hindex, hinputs⟩ := select_spec hu
  exact ⟨u, (step_of_inputs_cons h hin).trans (deliver_of_select hu), rfl, hindex, hinputs⟩

/-- Settles O14: with no input the wait is `await` of the empty list, and arriving bytes are `receive` on the context
they are addressed to. -/
theorem partialFrameWaits : Obligations.PartialFrameWaits := by
  refine fun s hf => ⟨fun hin => ?_, fun k bs later e hin he => ?_⟩
  · rw [step_of_fetch_incomplete hf]
    simp only [await, hin]
  · obtain ⟨u, hstep, rfl, hindex, hinputs⟩ := step_arrive hf hin he
    exact ⟨u.receive bs, hstep, hindex, hinputs, rfl⟩

/-- Settles O2: the context selected is `Engine.reset`, whose fields are R26's. -/
theorem resetEventRestoresContext : Obligations.ResetEventRestoresContext := by
  intro s k later e hf hin he
  obtain ⟨u, hstep, -, hindex, hinputs⟩ := step_arrive hf hin he
  exact ⟨u.resetEngine, hstep, hindex, hinputs, rfl, rfl, rfl, rfl, rfl, rfl, rfl, rfl⟩

/-! Where a step stops -/

/-- While the machine waits it acts on the context the next input is addressed to. -/
theorem actor_of_inputs_cons {s : State} {inp : Input} {later : List Input} (h : s.fetch = .incomplete)
    (hin : s.inputs = inp :: later) : s.actor = some inp.target := by
  cases inp <;> simp only [State.actor, h, hin, Input.target]

/-- Settles O16: commands and reserved opcodes complete, and so does a wait without inputs; a delivery stops at a missing
context alone. -/
theorem stepStopsOnlyAtMissingContext : Obligations.StepStopsOnlyAtMissingContext := by
  intro s
  obtain ⟨i, rest, -, hs⟩ | ⟨op, rest, -, hs⟩ | ⟨hf, hs⟩ := step_cases s
  · exact .inl ⟨_, hs.trans (exec_eq i _)⟩
  · exact .inl ⟨_, hs⟩
  · cases hin : s.inputs with
    | nil => exact .inl ⟨s, (partialFrameWaits s hf).1 hin⟩
    | cons inp later =>
      cases he : s.engines[inp.target]? with
      | none =>
        exact .inr ⟨inp.target, actor_of_inputs_cons hf hin, he, hf,
          (step_of_inputs_cons hf hin).trans (deliver_of_missing he)⟩
      | some e =>
        obtain ⟨u, hstep, -⟩ := step_arrive hf hin he
        exact .inl ⟨_, hstep⟩

/-! What a step leaves alone (R102) -/

/-- A step writes at most the context it acts on. -/
theorem step_engines {s t : State} (h : step s = .next t) :
    t.engines = s.engines ∨ ∃ k e, s.actor = some k ∧ t.engines = s.engines.set k e := by
  obtain ⟨i, rest, hf, rfl⟩ | ⟨op, rest, hf, rfl⟩ | ⟨-, -, rfl⟩ | ⟨k, bs, later, u, hf, hin, hu, rfl⟩ |
    ⟨k, later, u, hf, hin, hu, rfl⟩ := step_next h
  · exact .inr ⟨s.index, _, by simp only [State.actor, hf], engines_of_frame rfl rfl⟩
  · exact .inr ⟨s.index, _, by simp only [State.actor, hf], engines_of_frame rfl rfl⟩
  · exact .inl rfl
  · obtain ⟨hengines, -, rfl, -⟩ := select_spec hu
    exact .inr ⟨u.index, _, actor_of_inputs_cons hf hin,
      (engines_of_frame (receive_lower bs u) (receive_upper bs u)).trans (by rw [hengines]; rfl)⟩
  · obtain ⟨hengines, -, rfl, -⟩ := select_spec hu
    exact .inr ⟨u.index, _, actor_of_inputs_cons hf hin,
      (engines_of_frame (resetEngine_lower u) (resetEngine_upper u)).trans (by rw [hengines]; rfl)⟩

/-- Settles O54: a list keeps its length and its other places when one place is written. -/
theorem stepTouchesOneContext : Obligations.StepTouchesOneContext := by
  intro s t h
  obtain heq | ⟨j, e, hactor, heq⟩ := step_engines h
  · exact ⟨by rw [heq], fun k _ => by rw [heq]⟩
  · refine ⟨by rw [heq, List.length_set], fun k hk => ?_⟩
    have hne : j ≠ k := by
      rintro rfl
      exact hk hactor
    rw [heq, List.getElem?_set_ne hne]

/-- While the machine waits, no context at all has a complete frame on its port. -/
theorem engines_wait {s : State} (hwait : s.OthersWait) (hf : s.fetch = .incomplete) :
    ∀ e ∈ s.engines, decodeFrame e.cmdPort = .incomplete := by
  intro e he
  obtain hlow | rfl | hup : e ∈ s.lower ∨ e = s.engine ∨ e ∈ s.upper := by
    simpa only [State.engines, List.mem_append, List.mem_cons] using he
  · exact hwait e (List.mem_append_left _ hlow)
  · exact hf
  · exact hwait e (List.mem_append_right _ hup)

/-- Where no context has a complete frame, another one may be selected. -/
theorem othersWait_of_select {s u : State} {k : Nat} {later : List Input} (hwait : s.OthersWait)
    (hf : s.fetch = .incomplete) (hu : State.select k { s with inputs := later } = some u) : u.OthersWait := by
  obtain ⟨hengines, -, -, -⟩ := select_spec hu
  intro e he
  refine engines_wait hwait hf e ?_
  change e ∈ ({ s with inputs := later } : State).engines
  rw [← hengines]
  simp only [State.engines, List.mem_append, List.mem_cons] at he ⊢
  exact he.imp_right .inr

/-- Settles O53: a command and a rejected opcode leave the other contexts as they are, and an input changes the selection
only while no context has a complete frame. -/
theorem othersKeepWaiting : Obligations.OthersKeepWaiting := by
  intro s t hwait h
  obtain ⟨i, rest, -, rfl⟩ | ⟨op, rest, -, rfl⟩ | ⟨-, -, rfl⟩ | ⟨k, bs, later, u, hf, -, hu, rfl⟩ |
    ⟨k, later, u, hf, -, hu, rfl⟩ := step_next h
  · exact hwait
  · exact hwait
  · exact hwait
  · exact fun e he => othersWait_of_select hwait hf hu e he
  · exact fun e he => othersWait_of_select hwait hf hu e he

end Sys2Proof.Machine
end

section
/-! One response for each command (10_state.md R20, R22; 30_encoding.md R45; 60_exceptions.md R90, R93), and nothing but
the selected context touched (R37, R102). -/

namespace Sys2Proof.Machine

/-- Settles O15: the next state is that of `exec_eq`. -/
theorem everyCommandCompletes : Obligations.EveryCommandCompletes :=
  fun i s => ⟨_, _, exec_eq i s⟩

/-- Settles O32: `finish` writes the selected context, its responses and its index alone. -/
theorem commandFrame : Obligations.CommandFrame := by
  intro i s t h
  obtain rfl := exec_next h
  exact ⟨finish_lower .., finish_upper .., finish_inputs .., finish_cmdPort .., finish_pc .., _, finish_respPort ..⟩

/-- Settles O55: what `finish` makes of the selected context depends on that context alone. -/
theorem contextsShareNothing : Obligations.ContextsShareNothing := by
  intro i s s' t t' heq h h'
  obtain rfl := exec_next h
  obtain rfl := exec_next h'
  simp only [finish, heq]

/-- A command's response is accounted for: FAULT is set exactly by an error (R92, R93). -/
theorem commandResult_fault (i : Instr) (c : Context) :
    (commandResult i c).1.fault = (c.fault || (commandResult i c).2.isError) := by
  obtain ⟨code, hres⟩ | ⟨data, hok, hfault⟩ := commandResult_cases i c
  · rw [hres, setFault_fault, Response.isError, Bool.or_true]
  · rw [hok, hfault, Response.isError, Bool.or_false]

/-- One more response, and FAULT set exactly when it is an error, keep a context accounted for. -/
theorem accounted_respond {e : Engine} (he : e.Accounted) {c : Context} {r : Response}
    (hc : c.fault = (e.ctx.fault || r.isError)) (bs : List Byte) :
    Engine.Accounted { ctx := c, cmdPort := bs, respPort := e.respPort ++ [r], pc := e.pc + 1 } := by
  obtain ⟨hpc, hfault⟩ := he
  refine ⟨?_, ?_⟩
  · rw [List.length_append, List.length_singleton, hpc]
  · rw [hc, hfault, List.any_append, List.any_cons, List.any_nil, Bool.or_false]

/-- Settles O51: the four things that can happen to a context, by `step_keeps`. -/
theorem accountKeptByStep : Obligations.AccountKeptByStep :=
  fun _ _ hs h => step_keeps
    (fun e i bs he => accounted_respond he (commandResult_fault i e.ctx) bs)
    (fun _ bs he => accounted_respond he (Bool.or_true _).symm bs)
    (fun _ _ he => he)
    ⟨rfl, rfl⟩ hs h

/-- Settles O52: every context is `Engine.reset`. -/
theorem accountAtReset : Obligations.AccountAtReset := by
  intro extra
  refine ⟨fun e he => ?_, fun e he => ?_⟩ <;> obtain rfl := eq_reset_of_mem_engines_resetWith he
  · exact ⟨rfl, rfl⟩
  · exact ⟨rfl, rfl, rfl⟩

end Sys2Proof.Machine
end

section
/-! The commands by phase (40_commands.md R52, R53, R58, R63 to R66): which answer and which phase each command leaves, and
what it keeps of the context. -/

namespace Sys2Proof.Machine

/-! The answers of a command -/

/-- UPDATE is accepted or rejected by the phase (R53). -/
theorem commandResult_update_cases (data : List Byte) (c : Context) :
    (c.phase ≠ .finalized ∧ commandResult (.update data) c = (updateCtx data c, .ok [])) ∨
      (c.phase = .finalized ∧ commandResult (.update data) c = (c.setFault, .error .finalized)) := by
  obtain ⟨hp, hc⟩ | ⟨hp, hc⟩ := checkAppend_cases c.phase
  · exact .inl ⟨hp, by simp only [commandResult, hc]⟩
  · exact .inr ⟨hp, by simp only [commandResult, hc]⟩

/-- FINALIZE is accepted or rejected by the phase (R58). -/
theorem commandResult_finalize_cases (c : Context) :
    (c.phase ≠ .finalized ∧ commandResult .finalize c = (finalizeCtx c, .ok [])) ∨
      (c.phase = .finalized ∧ commandResult .finalize c = (c.setFault, .error .finalized)) := by
  obtain ⟨hp, hc⟩ | ⟨hp, hc⟩ := checkAppend_cases c.phase
  · exact .inl ⟨hp, by simp only [commandResult, hc]⟩
  · exact .inr ⟨hp, by simp only [commandResult, hc]⟩

/-- The bytes a read answers for a digest (R63, R64). -/
def readBytes (i : Instr) (d : DigestBytes) : List Byte := if i = .digest then d.toList else hexOf d

/-- DIGEST and HEXDIGEST answer the digest register or the error of an early read (R63, R64). -/
theorem commandResult_read_cases {i : Instr} (hi : i = .digest ∨ i = .hexDigest) (c : Context) :
    (∃ d, c.phase = .finalized ∧ c.dig = some d ∧ commandResult i c = (c, .ok (readBytes i d))) ∨
      ((c.phase ≠ .finalized ∨ c.dig = none) ∧ commandResult i c = (c.setFault, .error .notFinalized)) := by
  obtain ⟨d, hp, hd, hread⟩ | ⟨hno, hread⟩ := readDigest_cases c
  · refine .inl ⟨d, hp, hd, ?_⟩
    obtain rfl | rfl := hi <;> simp only [commandResult, hread] <;> rfl
  · refine .inr ⟨hno, ?_⟩
    obtain rfl | rfl := hi <;> simp only [commandResult, hread]

/-! The phase table (R66) -/

/-- The cell of the phase table for each command, where a Finalized context has its digest (R66). -/
theorem commandResult_phaseTable (i : Instr) {c : Context} (hdig : c.phase = .finalized → c.dig ≠ none) :
    (commandResult i c).1.phase = (phaseTable c.phase i).1 ∧
      (commandResult i c).2.bytes.head? = some (phaseTable c.phase i).2 := by
  cases hp : c.phase with
  | initialized | accumulating =>
    have hread := readDigest_of_ne (c := c) (by rw [hp]; decide)
    cases i <;>
      simp [commandResult, hp, checkAppend, hread, phaseTable, updateCtx, finalizeCtx, Response.bytes, ErrorCode.byte]
  | finalized =>
    obtain ⟨d, hd⟩ := Option.ne_none_iff_exists'.mp (hdig hp)
    have hread := readDigest_of_some hp hd
    cases i <;> simp [commandResult, hp, checkAppend, hread, phaseTable, Response.bytes, ErrorCode.byte]

/-- Settles O30: a command's cell is that of its result; a reserved opcode raises its error and writes no phase. -/
theorem phaseMachine : Obligations.PhaseMachine :=
  ⟨fun i s hdig => ⟨_, _, exec_eq i s, rfl, commandResult_phaseTable i hdig⟩,
    fun _ _ _ hport hop => ⟨_, _, step_reserved hport hop, rfl, rfl, rfl⟩⟩

/-! Responses (R45) -/

/-- A successful read answers the bytes of a digest. -/
theorem eq_readBytes_of_ok {i : Instr} (hi : i = .digest ∨ i = .hexDigest) {c : Context} {data : List Byte}
    (h : (commandResult i c).2 = .ok data) : ∃ d, data = readBytes i d := by
  obtain ⟨d, -, -, hres⟩ | ⟨-, hres⟩ := commandResult_read_cases hi c <;> rw [hres] at h <;> cases h
  exact ⟨d, rfl⟩

/-- Settles O31: the commands without data answer an empty list, and a digest has 32 bytes or 64 characters. -/
theorem responseFrames : Obligations.ResponseFrames := by
  refine ⟨fun _ => rfl, rfl, rfl, rfl, fun i s t data h hresp => ?_⟩
  obtain rfl := exec_next h
  rw [finish_respPort, List.append_cancel_left_eq, List.singleton_inj] at hresp
  cases i with
  | create => cases hresp; rfl
  | update x =>
    obtain ⟨-, hres⟩ | ⟨-, hres⟩ := commandResult_update_cases x s.engine.ctx <;> rw [hres] at hresp <;> cases hresp
    rfl
  | finalize =>
    obtain ⟨-, hres⟩ | ⟨-, hres⟩ := commandResult_finalize_cases s.engine.ctx <;> rw [hres] at hresp <;> cases hresp
    rfl
  | digest =>
    obtain ⟨d, rfl⟩ := eq_readBytes_of_ok (.inl rfl) hresp
    exact d.length_toList
  | hexDigest =>
    obtain ⟨d, rfl⟩ := eq_readBytes_of_ok (.inr rfl) hresp
    exact hexOf_length d

/-! Reads (R34, R63, R64) -/

/-- Settles O37: a read that succeeds leaves the whole context, so the second read finds the same digest; one that fails
leaves all but FAULT. -/
theorem readFrame : Obligations.ReadFrame := by
  intro i s t hi h
  obtain rfl := exec_next h
  obtain ⟨d, -, -, hres⟩ | ⟨-, hres⟩ := commandResult_read_cases hi s.engine.ctx
  · rw [hres]
    refine ⟨rfl, fun data hresp => ⟨rfl, _, exec_eq i _, ?_⟩⟩
    rw [finish_respPort, List.append_cancel_left_eq] at hresp
    rw [finish_ctx, hres, finish_respPort, hresp]
  · rw [hres]
    refine ⟨rfl, fun data hresp => ?_⟩
    rw [finish_respPort, List.append_cancel_left_eq] at hresp
    cases hresp

/-- Settles O29: with an empty digest register only the error case is left. -/
theorem emptyDigestIsNotRead : Obligations.EmptyDigestIsNotRead := by
  intro i s hi hdig
  obtain ⟨d, -, hd, -⟩ | ⟨-, hres⟩ := commandResult_read_cases hi s.engine.ctx
  · rw [hdig] at hd
    cases hd
  · rw [exec_eq, hres]
    rfl

/-! CREATE (R52, R106) -/

/-- Settles O3: `createCtx` field by field. -/
theorem createMatchesReset : Obligations.CreateMatchesReset :=
  fun s => ⟨_, exec_create s, rfl, rfl⟩

/-- Settles O34: CREATE's next state is that of `exec_create`. -/
theorem createFrame : Obligations.CreateFrame := by
  intro s t h
  obtain rfl := exec_next h
  exact ⟨fun _ _ => rfl, rfl⟩

/-! FINALIZE (R58 to R61, D16) -/

/-- With a fill of at most 55 the buffered bytes stay in front of the mark. -/
theorem onlyBlock_getElem_buffered {c : Context} (hlen : c.len.val ≤ 55) {j : Nat} (hj : j < c.len.val) :
    (onlyBlock c)[j] = c.buf[j] := by
  have hmark : (markEnd c).buf[j] = c.buf[j] := Vector.getElem_set_ne c.len.isLt (by omega) (by omega)
  rw [onlyBlock, writeCount_getElem_low _ _ _ (by omega), zeroFill_getElem, if_neg (by omega), hmark]

/-- Settles O36: the fields are those of `finalizeCtx_kept`, and the one block is `onlyBlock`. -/
theorem finalizeFrame : Obligations.FinalizeFrame := by
  intro s t hp h
  obtain rfl : respond (finalizeCtx s.engine.ctx) [] s = t := by
    rw [exec_finalize_of_ne hp] at h
    injection h
  obtain ⟨hlen, hbits, hfault, -, -⟩ := finalizeCtx_kept s.engine.ctx
  refine ⟨hlen, hbits, hfault, fun hle j _ hj => ?_⟩
  rw [respond_ctx, finalizeCtx_of_le hle]
  exact onlyBlock_getElem_buffered hle hj

/-! The notional STATUS register (R19, R24) -/

/-- Settles O45: the bits are checked for each phase and each value of FAULT. -/
theorem statusLayout : Obligations.StatusLayout := by
  refine ⟨fun c => ?_, rfl⟩
  unfold Context.status
  cases c.phase <;> cases c.fault <;> decide

end Sys2Proof.Machine
end

section
/-! Byte sequences cut into blocks (20_memory.md R28; 40_commands.md R55, R62): a whole number of blocks in front can be
transformed first, a block is one Transform, and less than a block is none. -/

namespace Sys2Proof.Machine

theorem fullBlocks_length (m : List Byte) : (fullBlocks m).length = m.length / 64 := by
  rw [fullBlocks, List.length_map, List.length_range]

theorem fullBlocks_of_short {m : List Byte} (h : m.length < 64) : fullBlocks m = [] := by
  rw [fullBlocks, Nat.div_eq_of_lt h]
  rfl

theorem chainFrom_of_short (h : Chain) {m : List Byte} (hm : m.length < 64) : chainFrom h m = h := by
  rw [chainFrom, fullBlocks_of_short hm]
  rfl

/-- The blocks behind a whole number of blocks are those of what follows. -/
theorem blockAt_append_right (m d : List Byte) {q : Nat} (hq : m.length = 64 * q) (i : Nat) :
    blockAt (m ++ d) (q + i) = blockAt d i := by
  apply Vector.ext
  intro j hj
  have hplace : 64 * (q + i) + j - m.length = 64 * i + j := by omega
  rw [blockAt_getElem _ _ _ hj, blockAt_getElem _ _ _ hj, List.getD_append_right _ _ _ _ (by omega), hplace]

theorem fullBlocks_append_of_blocks {m : List Byte} {q : Nat} (hq : m.length = 64 * q) (d : List Byte) :
    fullBlocks (m ++ d) = fullBlocks m ++ fullBlocks d := by
  have hcount : (m.length + d.length) / 64 - m.length / 64 = d.length / 64 := by omega
  have hplace : m.length / 64 = q := by omega
  rw [fullBlocks_append, hcount, hplace, fullBlocks.eq_def d]
  simp only [blockAt_append_right m d hq]

theorem chainFrom_append_of_blocks (h : Chain) {m : List Byte} {q : Nat} (hq : m.length = 64 * q) (d : List Byte) :
    chainFrom h (m ++ d) = chainFrom (chainFrom h m) d := by
  rw [chainFrom, fullBlocks_append_of_blocks hq, List.foldl_append]
  rfl

theorem blockAt_toList (b : Block) : blockAt b.toList 0 = b := by
  apply Vector.ext
  intro j hj
  rw [blockAt_getElem _ _ _ hj, Nat.mul_zero, Nat.zero_add, List.getD_eq_getElem _ _ (by simpa), Vector.getElem_toList]

/-- One block is one Transform (R55). -/
theorem chainFrom_block (h : Chain) (b : Block) : chainFrom h b.toList = transform h b := by
  have hone : fullBlocks b.toList = [b] := by
    rw [fullBlocks, Vector.length_toList]
    exact congrArg (fun x => [x]) (blockAt_toList b)
  rw [chainFrom, hone]
  rfl

/-! The padded message (R58 to R62) -/

theorem padded_length (m : List Byte) :
    (padded m).length = 64 * (m.length / 64 + if m.length % 64 ≤ 55 then 1 else 2) := by
  have hall : (padded m).length = m.length + 1 + (119 - m.length % 64) % 64 + 8 := by
    simp only [padded, List.length_append, List.length_cons, List.length_replicate, Vector.length_toList]
    omega
  split <;> omega

/-- Settles O26: the blocks are the padded length divided by 64. -/
theorem transformCount : Obligations.TransformCount := by
  intro m
  rw [fullBlocks_length, padded_length]
  exact ⟨Nat.mul_mod_right _ _, Nat.mul_div_cancel_left _ (by decide)⟩

end Sys2Proof.Machine
end

section
/-! What a context has absorbed (40_commands.md R53 to R56): the complete blocks in front have been transformed and
counted, and the other bytes stand in the buffer. -/

namespace Sys2Proof.Machine

/-- The bytes in the buffer (R16). -/
def Context.buffered (c : Context) : List Byte := c.buf.toList.take c.len.val

theorem buffered_length (c : Context) : c.buffered.length = c.len.val := by
  simp [Context.buffered]

theorem buffered_getElem? (c : Context) {j : Nat} (hj : j < c.len.val) :
    c.buffered[j]? = some (c.buf[j]'(hj.trans c.len.isLt)) := by
  rw [Context.buffered, List.getElem?_take_of_lt hj]
  simp

/-- The context has absorbed the bytes `m` since its chaining state was `h0` and its bit counter `n0`: `front` are the
bytes of `m` in complete blocks. -/
def Context.Absorbed (c : Context) (h0 : Chain) (n0 : BitVec 64) (m : List Byte) : Prop :=
  ∃ (front : List Byte) (q : Nat), front.length = 64 * q ∧ m = front ++ c.buffered ∧ c.h = chainFrom h0 front ∧
    c.bitLen = n0 + BitVec.ofNat 64 (512 * q)

/-- Every context has absorbed the bytes in its buffer. -/
theorem absorbed_buffered (c : Context) : c.Absorbed c.h c.bitLen c.buffered :=
  ⟨[], 0, rfl, rfl, rfl, (BitVec.add_zero _).symm⟩

/-- The byte is stored behind those in the buffer (R54). -/
theorem take_set_len (c : Context) (x : Byte) :
    (c.buf.set c.len.val x c.len.isLt).toList.take (c.len.val + 1) = c.buffered ++ [x] := by
  have hlen : c.len.val < (c.buf.toList.set c.len.val x).length := by simp
  rw [Vector.toList_set, List.take_succ_eq_append_getElem hlen, List.getElem_set_self, List.take_set_of_le (Nat.le_refl _),
    Context.buffered]

/-- Absorb adds its byte to what the context has absorbed (R54, R55). -/
theorem absorb_absorbed {c : Context} {h0 : Chain} {n0 : BitVec 64} {m : List Byte} (hc : c.Absorbed h0 n0 m) (x : Byte) :
    (absorb c x).Absorbed h0 n0 (m ++ [x]) := by
  obtain ⟨front, q, hq, rfl, hh, hbits⟩ := hc
  have hstored := take_set_len c x
  rw [List.append_assoc, ← hstored]
  by_cases room : c.len.val + 1 < 64
  · rw [absorb_of_room c x room]
    exact ⟨front, q, hq, rfl, hh, hbits⟩
  · have hfull : c.len.val + 1 = 64 := by omega
    rw [absorb_of_full c x room, hfull, List.take_of_length_le (by simp)]
    refine ⟨front ++ (c.buf.set c.len.val x c.len.isLt).toList, q + 1, ?_, (List.append_nil _).symm, ?_, ?_⟩
    · rw [List.length_append, Vector.length_toList, hq]; omega
    · rw [chainFrom_append_of_blocks h0 hq, ← hh, chainFrom_block, blockDone_h]
    · rw [blockDone_bitLen, hbits, Nat.mul_succ, BitVec.ofNat_add, BitVec.add_assoc]
      rfl

/-- A payload is added to what the context has absorbed (R53). -/
theorem foldl_absorb_absorbed {c : Context} {h0 : Chain} {n0 : BitVec 64} {m : List Byte} (hc : c.Absorbed h0 n0 m)
    (data : List Byte) : (data.foldl absorb c).Absorbed h0 n0 (m ++ data) := by
  induction data generalizing c m with
  | nil => rwa [List.append_nil]
  | cons x xs ih =>
    have := ih (absorb_absorbed hc x)
    rwa [List.append_assoc] at this

/-- UPDATE adds its payload (R53). -/
theorem updateCtx_absorbed {c : Context} {h0 : Chain} {n0 : BitVec 64} {m : List Byte} (hc : c.Absorbed h0 n0 m)
    (data : List Byte) : (updateCtx data c).Absorbed h0 n0 (m ++ data) :=
  foldl_absorb_absorbed hc data

section
variable {c : Context} {h0 : Chain} {n0 : BitVec 64} {m : List Byte} (hc : c.Absorbed h0 n0 m)
include hc

theorem absorbed_len : c.len.val = m.length % 64 := by
  obtain ⟨front, q, hq, rfl, -, -⟩ := hc
  have := c.len.isLt
  rw [List.length_append, hq, buffered_length]; omega

theorem absorbed_h : c.h = chainFrom h0 m := by
  obtain ⟨front, q, hq, rfl, hh, -⟩ := hc
  rw [chainFrom_append_of_blocks h0 hq, chainFrom_of_short _ (by rw [buffered_length]; exact c.len.isLt), hh]

theorem absorbed_bitLen : c.bitLen = n0 + BitVec.ofNat 64 (512 * (m.length / 64)) := by
  obtain ⟨front, q, hq, rfl, -, hbits⟩ := hc
  have := c.len.isLt
  have hcount : (front ++ c.buffered).length / 64 = q := by rw [List.length_append, hq, buffered_length]; omega
  rw [hbits, hcount]

theorem absorbed_getElem? {j : Nat} (hj : j < c.len.val) :
    m[64 * (m.length / 64) + j]? = some (c.buf[j]'(hj.trans c.len.isLt)) := by
  obtain ⟨front, q, hq, rfl, -, -⟩ := hc
  have := c.len.isLt
  have hplace : 64 * ((front ++ c.buffered).length / 64) + j = front.length + j := by
    rw [List.length_append, hq, buffered_length]; omega
  rw [hplace, List.getElem?_append_right (Nat.le_add_right _ _), Nat.add_sub_cancel_left, buffered_getElem? c hj]

end

/-- Settles O21: the context has absorbed the buffered bytes, and UPDATE adds the payload. -/
theorem updateTransformsWholeBlocks : Obligations.UpdateTransformsWholeBlocks := by
  intro data s hp
  refine ⟨_, exec_update_of_ne data hp, ?_⟩
  have habs := updateCtx_absorbed (absorbed_buffered s.engine.ctx) data
  have hlength : (s.engine.ctx.buffered ++ data).length = s.engine.ctx.len.val + data.length := by
    rw [List.length_append, buffered_length]
  have hbits := absorbed_bitLen habs
  have hlen := absorbed_len habs
  have hbuf := @absorbed_getElem? _ _ _ _ habs
  rw [hlength] at hbits hlen hbuf
  exact ⟨by rw [fullBlocks_length, ← hlength]; rfl, absorbed_h habs, hbits, hlen, fun j _ hj => hbuf hj, rfl⟩

/-- Settles O22: the phase between the two is not read while bytes are absorbed. -/
theorem streamingEquivalence : Obligations.StreamingEquivalence := by
  intro x y s hp
  have hnext : (respond (updateCtx x s.engine.ctx) [] s).engine.ctx.phase ≠ .finalized := by
    rw [respond_ctx]; exact Phase.noConfusion
  refine ⟨_, _, _, exec_update_of_ne x hp, exec_update_of_ne y hnext, exec_update_of_ne (x ++ y) hp, ?_⟩
  rw [respond_ctx, respond_ctx, respond_ctx, updateCtx, updateCtx, updateCtx, foldl_absorb_withPhase, List.foldl_append]

/-- A buffer byte no payload byte is stored to stays (R54). -/
theorem foldl_absorb_getElem {j : Nat} (hj : j < 64) (data : List Byte) (c : Context)
    (hout : ∀ k, k < data.length → (c.len.val + k) % 64 ≠ j) : (data.foldl absorb c).buf[j] = c.buf[j] := by
  induction data generalizing c with
  | nil => rfl
  | cons x xs ih =>
    have hfirst : c.len.val ≠ j := by
      have := hout 0 (Nat.zero_lt_succ _)
      rwa [Nat.add_zero, Nat.mod_eq_of_lt c.len.isLt] at this
    have hrest : ∀ k, k < xs.length → ((absorb c x).len.val + k) % 64 ≠ j := by
      intro k hk
      have := hout (k + 1) (Nat.succ_lt_succ hk)
      rw [absorb_len]
      omega
    rw [List.foldl_cons, ih _ hrest, absorb_buf, Vector.getElem_set_ne _ _ hfirst]

/-- Settles O35: `dig` and FAULT are not written, a place of the buffer is written only by its byte, and bytes that fill no
block transform and count none. -/
theorem updateFrame : Obligations.UpdateFrame := by
  intro data s t hp h
  obtain rfl : respond (updateCtx data s.engine.ctx) [] s = t := by
    rw [exec_update_of_ne data hp] at h
    injection h
  refine ⟨foldl_absorb_dig _ _, foldl_absorb_fault _ _, fun j hj hout => foldl_absorb_getElem hj data _ hout,
    fun hshort => ?_⟩
  have habs := updateCtx_absorbed (absorbed_buffered s.engine.ctx) data
  have hlength : (s.engine.ctx.buffered ++ data).length < 64 := by
    rwa [List.length_append, buffered_length]
  have hh := absorbed_h habs
  have hbits := absorbed_bitLen habs
  rw [chainFrom_of_short _ hlength] at hh
  rw [Nat.div_eq_of_lt hlength, Nat.mul_zero] at hbits
  exact ⟨hh, hbits.trans (BitVec.add_zero _)⟩

end Sys2Proof.Machine
end

section
/-! The message of a context (10_state.md R16 to R18; 20_memory.md R28; 40_commands.md R58 to R62): the message a context
holds is what it has absorbed since CREATE or reset, and FINALIZE's blocks complete it to the padded message. -/

namespace Sys2Proof.Machine

/-! What a context holds as what it has absorbed -/

theorem pending_of_absorbed {c : Context} {m : List Byte} (hc : c.Absorbed iv 0 m) : c.Pending m where
  len_eq := absorbed_len hc
  bitLen_eq := (absorbed_bitLen hc).trans (BitVec.zero_add _)
  buf_eq j _ hj := by rw [List.getD_eq_getElem?_getD, absorbed_getElem? hc hj, Option.getD_some]
  h_eq := absorbed_h hc

/-- The buffer holds the bytes of the message behind its complete blocks. -/
theorem pending_buffered {c : Context} {m : List Byte} (hc : c.Pending m) :
    c.buffered = m.drop (64 * (m.length / 64)) := by
  have hlen := hc.len_eq
  apply List.ext_getElem?
  intro j
  rcases Nat.lt_or_ge j c.len.val with inside | outside
  · have hm : 64 * (m.length / 64) + j < m.length := by omega
    rw [buffered_getElem? c inside, hc.buf_eq j (inside.trans c.len.isLt) inside, List.getElem?_drop,
      List.getD_eq_getElem _ _ hm, List.getElem?_eq_getElem hm]
  · rw [List.getElem?_eq_none (by rwa [buffered_length]), List.getElem?_eq_none (by rw [List.length_drop]; omega)]

theorem absorbed_of_pending {c : Context} {m : List Byte} (hc : c.Pending m) : c.Absorbed iv 0 m := by
  have hq : (m.take (64 * (m.length / 64))).length = 64 * (m.length / 64) := by rw [List.length_take]; omega
  have hm : m = m.take (64 * (m.length / 64)) ++ c.buffered := by rw [pending_buffered hc, List.take_append_drop]
  refine ⟨_, _, hq, hm, ?_, hc.bitLen_eq.trans (BitVec.zero_add _).symm⟩
  rw [hc.h_eq]
  conv_lhs => rw [hm]
  rw [chainFrom_append_of_blocks iv hq, chainFrom_of_short _ (by rw [buffered_length]; exact c.len.isLt)]

/-! What `Holds` says in each phase (R18, R19) -/

section
variable {c : Context} {m : List Byte}

theorem holds_iff_of_initialized (hp : c.phase = .initialized) : c.Holds m ↔ m = [] ∧ c.Pending m ∧ c.dig = none := by
  rw [Context.Holds, hp]

theorem holds_iff_of_accumulating (hp : c.phase = .accumulating) : c.Holds m ↔ c.Pending m ∧ c.dig = none := by
  rw [Context.Holds, hp]

theorem holds_iff_of_finalized (hp : c.phase = .finalized) :
    c.Holds m ↔ c.h = chainFrom iv (padded m) ∧ c.dig = some (hashMessage m) := by
  rw [Context.Holds, hp]

/-- Before Finalized a context holds what it has absorbed, and its digest register is empty. -/
theorem absorbed_of_holds (hp : c.phase ≠ .finalized) (hc : c.Holds m) : c.Absorbed iv 0 m ∧ c.dig = none := by
  cases hphase : c.phase with
  | initialized =>
    obtain ⟨-, hpending, hdig⟩ := (holds_iff_of_initialized hphase).mp hc
    exact ⟨absorbed_of_pending hpending, hdig⟩
  | accumulating =>
    obtain ⟨hpending, hdig⟩ := (holds_iff_of_accumulating hphase).mp hc
    exact ⟨absorbed_of_pending hpending, hdig⟩
  | finalized => exact absurd hphase hp

end

/-- A context that begins a computation holds the empty message (R26, R52). -/
theorem holds_nil {c : Context} (hp : c.phase = .initialized) (hh : c.h = iv) (hlen : c.len = 0) (hbits : c.bitLen = 0)
    (hdig : c.dig = none) : c.Holds [] := by
  have hempty : c.len.val = 0 := congrArg Fin.val hlen
  have hpending : c.Pending [] := ⟨hempty, hbits, fun j _ hj => absurd hj (hempty ▸ Nat.not_lt_zero j), hh⟩
  exact (holds_iff_of_initialized hp).mpr ⟨rfl, hpending, hdig⟩

theorem createCtx_holds (c : Context) : (createCtx c).Holds [] := holds_nil rfl rfl rfl rfl rfl

theorem reset_holds : Context.reset.Holds [] := holds_nil rfl rfl rfl rfl rfl

/-- The message does not depend on FAULT. -/
theorem setFault_holds {c : Context} {m : List Byte} (hc : c.Holds m) : c.setFault.Holds m := by
  have hpending : c.Pending m → c.setFault.Pending m := fun ⟨hlen, hbits, hbuf, hh⟩ => ⟨hlen, hbits, hbuf, hh⟩
  cases hp : c.phase with
  | initialized =>
    obtain ⟨hm, hbuf, hdig⟩ := (holds_iff_of_initialized hp).mp hc
    exact (holds_iff_of_initialized (c := c.setFault) hp).mpr ⟨hm, hpending hbuf, hdig⟩
  | accumulating =>
    obtain ⟨hbuf, hdig⟩ := (holds_iff_of_accumulating hp).mp hc
    exact (holds_iff_of_accumulating (c := c.setFault) hp).mpr ⟨hpending hbuf, hdig⟩
  | finalized => exact (holds_iff_of_finalized (c := c.setFault) hp).mpr ((holds_iff_of_finalized hp).mp hc)

/-- UPDATE makes the message longer (R28, R53). -/
theorem updateCtx_holds {c : Context} {m : List Byte} (hp : c.phase ≠ .finalized) (hc : c.Holds m) (data : List Byte) :
    (updateCtx data c).Holds (m ++ data) := by
  obtain ⟨habs, hdig⟩ := absorbed_of_holds hp hc
  exact (holds_iff_of_accumulating rfl).mpr
    ⟨pending_of_absorbed (updateCtx_absorbed habs data), (foldl_absorb_dig data c).trans hdig⟩

/-! The padded message -/

/-- FINALIZE counts every bit of the message, modulo 2^64 (R58). -/
theorem totalBits_of_absorbed {c : Context} {h0 : Chain} {m : List Byte} (hc : c.Absorbed h0 0 m) :
    totalBits c = BitVec.ofNat 64 (8 * m.length) := by
  have hlen := absorbed_len hc
  have hcount : 512 * (m.length / 64) + 8 * c.len.val = 8 * m.length := by omega
  rw [totalBits, absorbed_bitLen hc, zero_add, ← BitVec.ofNat_add, hcount]

theorem bytesBE64_toList (v : BitVec 64) :
    (bytesBE64 v).toList = (List.range 8).map (fun k => v.extractLsb' (56 - 8 * k) 8) := rfl

/-- The blocks FINALIZE transforms, one or two by the fill (R59, R60). -/
def finalBlocks (c : Context) : List Byte :=
  if c.len.val ≤ 55 then (onlyBlock c).toList else (markBlock c).toList ++ (countBlock c).toList

/-- They are the bytes left over, completed by the padding (R58 to R61). -/
theorem finalBlocks_eq (c : Context) :
    finalBlocks c = c.buffered ++ 0x80 :: List.replicate ((119 - c.len.val) % 64) 0 ++ (bytesBE64 (totalBits c)).toList := by
  have hlt := c.len.isLt
  rw [finalBlocks, bytesBE64_toList]
  split
  next hle =>
    have hzeros : (119 - c.len.val) % 64 = 55 - c.len.val := by omega
    rw [onlyBlock_toList hle, hzeros]
    simp [Context.buffered]
  next hgt =>
    have hzeros : (119 - c.len.val) % 64 = (63 - c.len.val) + 56 := by omega
    rw [markBlock_toList, countBlock_toList, hzeros, List.replicate_add]
    simp [Context.buffered]

/-- FINALIZE's Transforms are those of its blocks (R59 to R61). -/
theorem finalizeCtx_h (c : Context) : (finalizeCtx c).h = chainFrom c.h (finalBlocks c) := by
  rw [finalBlocks]
  split
  next hle => rw [finalizeCtx_of_le hle, chainFrom_block]
  next hgt =>
    rw [finalizeCtx_of_ge (by omega), chainFrom_append_of_blocks (q := 1) _ (by simp), chainFrom_block, chainFrom_block]

/-- The chaining state FINALIZE leaves is that of the whole padded message (R58 to R62). -/
theorem finalizeCtx_h_of_absorbed {c : Context} {m : List Byte} (hc : c.Absorbed iv 0 m) :
    (finalizeCtx c).h = chainFrom iv (padded m) := by
  have hpadded : padded m =
      m ++ 0x80 :: List.replicate ((119 - c.len.val) % 64) 0 ++ (bytesBE64 (totalBits c)).toList := by
    rw [totalBits_of_absorbed hc, absorbed_len hc, padded]
  obtain ⟨front, q, hq, hm, hh, -⟩ := hc
  have hblocks : padded m = front ++ finalBlocks c := by
    rw [hpadded, finalBlocks_eq, hm]
    simp only [List.append_assoc]
  rw [hblocks, chainFrom_append_of_blocks iv hq, ← hh, finalizeCtx_h]

/-- FINALIZE latches the digest of the whole message (R18, R61). -/
theorem finalizeCtx_dig_of_absorbed {c : Context} {m : List Byte} (hc : c.Absorbed iv 0 m) :
    (finalizeCtx c).dig = some (hashMessage m) := by
  obtain ⟨-, -, -, -, hdig⟩ := finalizeCtx_kept c
  rw [hdig, finalizeCtx_h_of_absorbed hc, hashMessage]

theorem finalizeCtx_holds {c : Context} {m : List Byte} (hp : c.phase ≠ .finalized) (hc : c.Holds m) :
    (finalizeCtx c).Holds m := by
  obtain ⟨habs, -⟩ := absorbed_of_holds hp hc
  exact (holds_iff_of_finalized rfl).mpr ⟨finalizeCtx_h_of_absorbed habs, finalizeCtx_dig_of_absorbed habs⟩

/-! The commands and the message -/

/-- The context a command leaves: that of an accepted CREATE, UPDATE or FINALIZE, or the one it found, but for FAULT. -/
theorem commandResult_ctx_cases (i : Instr) (c : Context) :
    (commandResult i c).1 = createCtx c ∨
    (c.phase ≠ .finalized ∧ ∃ data, (commandResult i c).1 = updateCtx data c) ∨
    (c.phase ≠ .finalized ∧ (commandResult i c).1 = finalizeCtx c) ∨
    (commandResult i c).1 = c ∨ (commandResult i c).1 = c.setFault := by
  cases i with
  | create => exact .inl rfl
  | update data =>
    obtain ⟨hp, hres⟩ | ⟨-, hres⟩ := commandResult_update_cases data c <;> rw [hres]
    · exact .inr (.inl ⟨hp, data, rfl⟩)
    · exact .inr (.inr (.inr (.inr rfl)))
  | finalize =>
    obtain ⟨hp, hres⟩ | ⟨-, hres⟩ := commandResult_finalize_cases c <;> rw [hres]
    · exact .inr (.inr (.inl ⟨hp, rfl⟩))
    · exact .inr (.inr (.inr (.inr rfl)))
  | digest =>
    obtain ⟨d, -, -, hres⟩ | ⟨-, hres⟩ := commandResult_read_cases (.inl rfl) c <;> rw [hres]
    · exact .inr (.inr (.inr (.inl rfl)))
    · exact .inr (.inr (.inr (.inr rfl)))
  | hexDigest =>
    obtain ⟨d, -, -, hres⟩ | ⟨-, hres⟩ := commandResult_read_cases (.inr rfl) c <;> rw [hres]
    · exact .inr (.inr (.inr (.inl rfl)))
    · exact .inr (.inr (.inr (.inr rfl)))

/-- Every command keeps that the context holds a message. -/
theorem commandResult_holds {c : Context} (i : Instr) (hc : ∃ m, c.Holds m) : ∃ m, (commandResult i c).1.Holds m := by
  obtain ⟨m, hm⟩ := hc
  obtain h | ⟨hp, data, h⟩ | ⟨hp, h⟩ | h | h := commandResult_ctx_cases i c <;> rw [h]
  · exact ⟨[], createCtx_holds c⟩
  · exact ⟨m ++ data, updateCtx_holds hp hm data⟩
  · exact ⟨m, finalizeCtx_holds hp hm⟩
  · exact ⟨m, hm⟩
  · exact ⟨m, setFault_holds hm⟩

/-- Settles O49: the four things that can happen to a context, by `step_keeps`. -/
theorem messageKeptByStep : Obligations.MessageKeptByStep :=
  fun _ _ hs h => step_keeps (P := fun e => ∃ m, e.ctx.Holds m)
    (fun _ i _ he => commandResult_holds i he)
    (fun _ _ ⟨m, hm⟩ => ⟨m, setFault_holds hm⟩)
    (fun _ _ he => he)
    ⟨[], reset_holds⟩ hs h

/-- Settles O50: every context is `Engine.reset`. -/
theorem messageAtReset : Obligations.MessageAtReset := by
  intro extra
  have hall : ∀ e ∈ (State.resetWith extra).engines, e.ctx.Holds [] := by
    intro e he
    obtain rfl := eq_reset_of_mem_engines_resetWith he
    exact reset_holds
  exact ⟨fun e he => ⟨[], hall e he⟩, hall⟩

/-- DIGEST answers the digest of the message a Finalized context holds (R63). -/
theorem exec_digest_of_holds {s : State} {m : List Byte} (hp : s.engine.ctx.phase = .finalized)
    (hm : s.engine.ctx.Holds m) : exec .digest s = .next (respond s.engine.ctx (hashMessage m).toList s) :=
  exec_digest_of_ok (readDigest_of_some hp ((holds_iff_of_finalized hp).mp hm).2)

/-- Settles O47: each accepted command's context holds the message named. -/
theorem commandsBuildTheMessage : Obligations.CommandsBuildTheMessage :=
  fun s _ hm => ⟨⟨_, exec_create s, createCtx_holds _⟩,
    fun data hp => ⟨_, exec_update_of_ne data hp, updateCtx_holds hp hm data⟩,
    fun hp => ⟨_, exec_finalize_of_ne hp, finalizeCtx_holds hp hm,
      finalizeCtx_dig_of_absorbed (absorbed_of_holds hp hm).1⟩,
    fun hp => ⟨_, exec_digest_of_holds hp hm, rfl, hm⟩⟩

/-- Accepted UPDATEs, one after the other: the message grows by each payload, and each is answered OK (R36, R53). -/
theorem execAll_updates (chunks : List (List Byte)) {s : State} {m : List Byte} (hp : s.engine.ctx.phase ≠ .finalized)
    (hm : s.engine.ctx.Holds m) :
    ∃ t : State, (∀ more, execAll (chunks.map .update ++ more) s = execAll more t) ∧
      t.engine.ctx.phase ≠ .finalized ∧ t.engine.ctx.Holds (m ++ chunks.flatten) ∧
      t.engine.ctx.fault = s.engine.ctx.fault ∧
      t.engine.respPort = s.engine.respPort ++ List.replicate chunks.length (.ok []) := by
  induction chunks generalizing s m with
  | nil => exact ⟨s, fun _ => rfl, hp, by rwa [List.flatten_nil, List.append_nil], rfl, (List.append_nil _).symm⟩
  | cons d chunks ih =>
    have hnext : (updateCtx d s.engine.ctx).phase ≠ .finalized := Phase.noConfusion
    obtain ⟨t, hrun, htp, htm, hfault, hresp⟩ :=
      ih (s := respond (updateCtx d s.engine.ctx) [] s) hnext (updateCtx_holds hp hm d)
    refine ⟨t, fun more => ?_, htp, ?_, ?_, ?_⟩
    · rw [List.map_cons, List.cons_append, execAll_cons (exec_update_of_ne d hp), hrun]
    · rwa [List.flatten_cons, ← List.append_assoc]
    · exact hfault.trans (foldl_absorb_fault d _)
    · rw [hresp, respond_respPort, List.append_assoc, List.length_cons, List.replicate_succ]
      rfl

theorem observe_respond (c : Context) (data : List Byte) (s : State) :
    (respond c data s).engine.observe = ⟨s.engine.respPort ++ [.ok data], c.fault, c.phase⟩ := rfl

/-- Settles O48: CREATE begins the empty message, the UPDATEs add the chunks, FINALIZE hashes them, and DIGEST answers the
digest; none of them is rejected, so FAULT stays 0. -/
theorem lifecycleHashesTheChunks : Obligations.LifecycleHashesTheChunks := by
  intro chunks s _ hsafe
  have hcreated : (createCtx s.engine.ctx).phase ≠ .finalized := Phase.noConfusion
  obtain ⟨t, hrun, hp, hm, hfault, hresp⟩ := execAll_updates chunks (s := respond (createCtx s.engine.ctx) [] s) hcreated
    (createCtx_holds _)
  rw [List.nil_append] at hm
  have hfin : (finalizeCtx t.engine.ctx).fault = false := by
    obtain ⟨-, -, hkept, -⟩ := finalizeCtx_kept t.engine.ctx
    rw [hkept, hfault, respond_ctx, createCtx_fault, hsafe]
  have hdigest := exec_digest_of_holds (s := respond (finalizeCtx t.engine.ctx) [] t) (m := chunks.flatten) rfl
    (finalizeCtx_holds hp hm)
  refine ⟨respond (finalizeCtx t.engine.ctx) (hashMessage chunks.flatten).toList (respond (finalizeCtx t.engine.ctx) [] t),
    ?_, hfin, ?_⟩
  · rw [execAll_cons (exec_create s), hrun, execAll_cons (exec_finalize_of_ne hp), execAll_cons hdigest]
    rfl
  · rw [observe_respond, hfin, respond_respPort, hresp, respond_respPort, List.replicate_succ, List.replicate_succ']
    simp only [List.append_assoc, List.cons_append, List.nil_append]
    rfl

end Sys2Proof.Machine
end

section
/-! The stale bytes of the buffer (10_state.md R16; 70_reset_and_hazards.md R112): two contexts that differ only there have
absorbed the same bytes, and so have they after every command. -/

namespace Sys2Proof.Machine

/-- Contexts that differ only in stale bytes hold the same bytes in their buffers. -/
theorem buffered_of_sameButStale {c d : Context} (h : c.SameButStale d) : c.buffered = d.buffered := by
  apply List.ext_getElem?
  intro j
  rcases Nat.lt_or_ge j c.len.val with inside | outside
  · rw [buffered_getElem? c inside, buffered_getElem? d (h.len_eq ▸ inside), h.buf_eq j _ inside]
  · rw [List.getElem?_eq_none (by rwa [buffered_length]),
      List.getElem?_eq_none (by rwa [buffered_length, ← h.len_eq])]

/-- Contexts that have absorbed the same bytes differ only in stale bytes. -/
theorem sameButStale_of_absorbed {c d : Context} {h0 : Chain} {n0 : BitVec 64} {m : List Byte}
    (hc : c.Absorbed h0 n0 m) (hd : d.Absorbed h0 n0 m) (hdig : c.dig = d.dig) (hphase : c.phase = d.phase)
    (hfault : c.fault = d.fault) : c.SameButStale d where
  h_eq := (absorbed_h hc).trans (absorbed_h hd).symm
  len_eq := Fin.ext ((absorbed_len hc).trans (absorbed_len hd).symm)
  bitLen_eq := (absorbed_bitLen hc).trans (absorbed_bitLen hd).symm
  dig_eq := hdig
  phase_eq := hphase
  fault_eq := hfault
  buf_eq j _ hj := by
    have hlen : c.len.val = d.len.val := (absorbed_len hc).trans (absorbed_len hd).symm
    exact Option.some.inj ((absorbed_getElem? hc hj).symm.trans (absorbed_getElem? hd (hlen ▸ hj)))

section
variable {c d : Context} (h : c.SameButStale d)
include h

theorem setFault_sameButStale : c.setFault.SameButStale d.setFault :=
  { h with fault_eq := rfl }

theorem createCtx_sameButStale : (createCtx c).SameButStale (createCtx d) :=
  ⟨rfl, rfl, rfl, rfl, rfl, h.fault_eq, fun _ _ hj => absurd hj (Nat.not_lt_zero _)⟩

theorem updateCtx_sameButStale (data : List Byte) : (updateCtx data c).SameButStale (updateCtx data d) := by
  have hd := absorbed_buffered d
  rw [← buffered_of_sameButStale h, ← h.h_eq, ← h.bitLen_eq] at hd
  exact sameButStale_of_absorbed (updateCtx_absorbed (absorbed_buffered c) data) (updateCtx_absorbed hd data)
    (by simp [updateCtx, h.dig_eq]) rfl (by simp [updateCtx, h.fault_eq])

theorem totalBits_of_sameButStale : totalBits c = totalBits d := by
  rw [totalBits, totalBits, h.bitLen_eq, h.len_eq]

/-- The padding overwrites the stale bytes (R59 to R61). -/
theorem finalizeCtx_sameButStale : (finalizeCtx c).SameButStale (finalizeCtx d) := by
  have hbytes : c.buf.toList.take c.len.val = d.buf.toList.take d.len.val := buffered_of_sameButStale h
  have hmark : markBlock c = markBlock d := by
    rw [← Vector.toList_inj, markBlock_toList, markBlock_toList, hbytes, h.len_eq]
  have hcount : countBlock c = countBlock d := by
    rw [← Vector.toList_inj, countBlock_toList, countBlock_toList, totalBits_of_sameButStale h]
  rcases Nat.lt_or_ge c.len.val 56 with one | two
  · have hd : d.len.val ≤ 55 := by rw [← h.len_eq]; omega
    have honly : onlyBlock c = onlyBlock d := by
      rw [← Vector.toList_inj, onlyBlock_toList (by omega), onlyBlock_toList hd, hbytes, h.len_eq,
        totalBits_of_sameButStale h]
    rw [finalizeCtx_of_le (by omega), finalizeCtx_of_le hd, honly, h.h_eq]
    exact ⟨rfl, h.len_eq, h.bitLen_eq, rfl, rfl, h.fault_eq, fun _ _ _ => rfl⟩
  · rw [finalizeCtx_of_ge two, finalizeCtx_of_ge (h.len_eq ▸ two), hmark, hcount, h.h_eq]
    exact ⟨rfl, h.len_eq, h.bitLen_eq, rfl, rfl, h.fault_eq, fun _ _ _ => rfl⟩

theorem readDigest_of_sameButStale : readDigest c = readDigest d := by
  rw [readDigest, readDigest, h.phase_eq, h.dig_eq]

/-- No command answers by a stale byte, or leaves a byte that is not stale by one. -/
theorem commandResult_sameButStale (i : Instr) :
    (commandResult i c).1.SameButStale (commandResult i d).1 ∧ (commandResult i c).2 = (commandResult i d).2 := by
  cases i with
  | create => exact ⟨createCtx_sameButStale h, rfl⟩
  | update data =>
    simp only [commandResult, h.phase_eq]
    cases checkAppend d.phase with
    | none => exact ⟨updateCtx_sameButStale h data, rfl⟩
    | some code => exact ⟨setFault_sameButStale h, rfl⟩
  | finalize =>
    simp only [commandResult, h.phase_eq]
    cases checkAppend d.phase with
    | none => exact ⟨finalizeCtx_sameButStale h, rfl⟩
    | some code => exact ⟨setFault_sameButStale h, rfl⟩
  | digest =>
    simp only [commandResult, readDigest_of_sameButStale h]
    cases readDigest d with
    | ok bytes => exact ⟨h, rfl⟩
    | error code => exact ⟨setFault_sameButStale h, rfl⟩
  | hexDigest =>
    simp only [commandResult, readDigest_of_sameButStale h]
    cases readDigest d with
    | ok bytes => exact ⟨h, rfl⟩
    | error code => exact ⟨setFault_sameButStale h, rfl⟩

end

/-- The same response ends a command on both states. -/
theorem finish_sameButStale {s s' : State} (hs : s.SameButStale s') {c d : Context} (hc : c.SameButStale d)
    (r : Response) : (finish c r s).SameButStale (finish d r s') := by
  refine ⟨hc, ?_⟩
  rw [hs.2]
  rfl

/-- Settles O56: both states end the command as `commandResult_sameButStale` says, and their ports are the same. -/
theorem staleBytesAreInvisible : Obligations.StaleBytesAreInvisible := by
  intro i s s' t hs h
  obtain rfl := exec_next h
  obtain ⟨hctx, hresp⟩ := commandResult_sameButStale hs.1 i
  refine ⟨_, exec_eq i s', ?_, ?_⟩
  · rw [hresp]
    exact finish_sameButStale hs hctx _
  · rw [finish_respPort, finish_respPort, hresp, hs.2]

end Sys2Proof.Machine
end

section
/-! Lines of text (30_encoding.md R48): what a mnemonic with its operand gives, and that every line gives
commands that spell frames, or one raw byte. -/

namespace Sys2Proof.Machine

/-! What a line gives -/

/-- A line of a mnemonic alone, with or without a comment. -/
theorem assembleLine_plain {m w tail : List Char} (ht : tail = [] ∨ ∃ note, tail = ' ' :: ';' :: note)
    (hm : m.map Char.toUpper = w) (hw : w.all isWordChar = true) (ne : w ≠ []) :
    assembleLine (m ++ tail) = plainLine w := by
  obtain ⟨hnil, stop⟩ := tokens_tail ht
  have lexed : tokens (m ++ tail) = some [.word m] := by
    rw [tokens_mnemonic hm hw ne tail stop, hnil]
    rfl
  rw [assembleLine_word lexed, hm]

/-- An operand is the payload it spells, where a frame can hold it. -/
theorem operandPayload_spelled {x : List Byte} {op tail : List Char} (hop : OperandSpelled x op)
    (ht : tail = [] ∨ ∃ note, tail = ' ' :: ';' :: note) :
    operandPayload (op ++ tail) = if x.length ≤ Config.maxUpdateLen then some x else none := by
  obtain ⟨t, ts, hlex, hpay⟩ := payload_spelled hop ht
  rw [operandPayload, hlex, Option.bind_some, framePayload, hpay]

/-- A line of one raw frame byte. -/
theorem assembleLine_byte {m tail : List Char} (ht : tail = [] ∨ ∃ note, tail = ' ' :: ';' :: note) {a b : Fin 16}
    {ca cb : Char} (ha : HexChar a ca) (hb : HexChar b cb) (hm : m.map Char.toUpper = ".BYTE".toList) :
    assembleLine (m ++ ' ' :: '0' :: 'x' :: ca :: cb :: tail) = some [.rawByte (BitVec.ofNat 8 (16 * a.val + b.val))] := by
  obtain ⟨hnil, stop⟩ := tokens_tail ht
  have literal : tokens ('0' :: 'x' :: ca :: cb :: tail) = some [.word ['0', 'x', ca, cb]] := by
    have := tokens_word _ tail (isWordChar_literal ha hb) (List.cons_ne_nil _ _) stop
    rwa [hnil] at this
  have lexed : tokens (m ++ ' ' :: '0' :: 'x' :: ca :: cb :: tail) = some [.word m, .word ['0', 'x', ca, cb]] := by
    rw [tokens_mnemonic hm (by decide) (by decide) _ (by rintro c ⟨⟩; rfl), tokens_blank _ _ rfl, literal]
    rfl
  have operand : operandLine ".BYTE".toList [.word ['0', 'x', ca, cb]] = (hexByte ca cb).map fun v => [.rawByte v] := rfl
  rw [assembleLine_operand lexed, hm, operand, hexByte_of_chars ha hb, Option.map_some]

/-- Settles O57: one kind of line for each clause. -/
theorem assembledLinesGiveCommands : Obligations.AssembledLinesGiveCommands := by
  intro m tail ht
  refine ⟨fun hm => ?_, fun hm => ?_, fun hm => ?_, fun hm => ?_, fun x op hop hm => ?_,
    fun a b ca cb ha hb hm => assembleLine_byte ht ha hb hm⟩
  · exact assembleLine_plain ht hm (by decide) (by decide)
  · exact assembleLine_plain ht hm (by decide) (by decide)
  · exact assembleLine_plain ht hm (by decide) (by decide)
  · exact assembleLine_plain ht hm (by decide) (by decide)
  · rw [assembleLine_payload (items := fun d => [.command (.update d)]) hm (by decide) (by decide) rfl (fun _ => rfl),
      operandPayload_spelled hop ht, Config.maxUpdateLen]
    split <;> rfl

/-! The commands of a line -/

/-- What every admitted line gives: one raw byte, or commands that spell frames. -/
def ItemsSpellFrames (items : List AsmItem) : Prop :=
  (∃ b, items = [.rawByte b]) ∨ ∃ cmds : List Instr, items = cmds.map .command ∧ ∀ i ∈ cmds, i.WellFormed

theorem framePayload_wellFormed {ts : List Token} {x : List Byte} (h : framePayload ts = some x) :
    (Instr.update x).WellFormed := by
  unfold framePayload at h
  split at h
  · split at h
    · cases h
      exact decide_eq_true ‹_›
    · cases h
  · cases h

theorem plainLine_spells {m : List Char} {items : List AsmItem} (h : plainLine m = some items) :
    ItemsSpellFrames items := by
  unfold plainLine at h
  split_ifs at h <;> cases h
  · exact .inr ⟨[.create], rfl, by decide⟩
  · exact .inr ⟨[.finalize], rfl, by decide⟩
  · exact .inr ⟨[.digest], rfl, by decide⟩
  · exact .inr ⟨[.hexDigest], rfl, by decide⟩

/-- A line that makes commands of its payload, where these spell frames. -/
theorem payloadLine_spells {ts : List Token} {cmds : List Byte → List Instr}
    (hcmds : ∀ x, (Instr.update x).WellFormed → ∀ i ∈ cmds x, i.WellFormed) {items : List AsmItem}
    (h : ((framePayload ts).map fun x => (cmds x).map .command) = some items) : ItemsSpellFrames items := by
  obtain ⟨x, hx, rfl⟩ := Option.map_eq_some_iff.mp h
  exact .inr ⟨cmds x, rfl, hcmds x (framePayload_wellFormed hx)⟩

theorem operandLine_spells {m : List Char} {ts : List Token} {items : List AsmItem} (h : operandLine m ts = some items) :
    ItemsSpellFrames items := by
  unfold operandLine at h
  split_ifs at h
  · exact payloadLine_spells (cmds := fun x => [.update x]) (by simp) h
  · exact payloadLine_spells (cmds := hashCommands) (fun x hx => by simpa [hashCommands] using ⟨rfl, hx, rfl⟩) h
  · exact payloadLine_spells (cmds := hashHexCommands)
      (fun x hx => by simpa [hashHexCommands, hashCommands] using ⟨rfl, hx, rfl, rfl⟩) h
  · split at h
    · obtain ⟨b, -, rfl⟩ := Option.map_eq_some_iff.mp h
      exact .inl ⟨b, rfl⟩
    · cases h

theorem assembleLine_spells {line : List Char} {items : List AsmItem} (h : assembleLine line = some items) :
    ItemsSpellFrames items := by
  unfold assembleLine at h
  split at h
  · cases h
  · cases h
    exact .inr ⟨[], rfl, by simp⟩
  · exact plainLine_spells h
  · exact operandLine_spells h
  · cases h

/-- Settles O59: a raw byte is no command, and the frames of commands run as O12 says. -/
theorem assembledCommandsSpellFrames : Obligations.AssembledCommandsSpellFrames := by
  intro line items h
  obtain ⟨b, rfl⟩ | ⟨cmds, rfl, hwf⟩ := assembleLine_spells h
  · exact ⟨fun i hi => by simp at hi, .inl ⟨b, rfl⟩⟩
  · refine ⟨fun i hi => ?_, .inr ⟨cmds, rfl, fun s rest => ?_⟩⟩
    · obtain ⟨j, hj, hji⟩ := List.mem_map.mp hi
      obtain rfl := AsmItem.command.inj hji
      exact ⟨hwf j hj, fun rest => decodeEncodeRoundTrip j rest (hwf j hj)⟩
    · rw [List.flatMap_map]
      exact stepsComposeSequentially cmds s rest hwf

end Sys2Proof.Machine
end
